-- ==== Sys2Proof/Word.lean ====
section
/-! DEFINITION. The values the engine computes with: `spec/00_scope.md` R7 and R8. -/

namespace Sys2Proof

/-- `u8`: an unsigned 8-bit value, the width of a register, a memory cell, an opcode and an operand byte (R8). -/
abbrev Byte := BitVec 8

/-- `u9`: an unsigned 9-bit value, the width of the program counter and of an address before it is checked (R8, R24). -/
abbrev Addr := BitVec 9

/-- The number of one of the eight registers `x[0]` .. `x[7]` (R20). -/
abbrev Reg := Fin 8

end Sys2Proof
end

