-- ==== Sys2Proof/Config.lean ====
section
/-! DEFINITION. What one implementation of the engine fixes: the parameters of `spec/00_scope.md` R6.
The default values stand in `Sys2Proof/Decode.lean` and `Sys2Proof/Machine/Params.lean`. The spec leaves no value
free (R13), so nothing here is opaque. -/

namespace Sys2Proof

/-- What the dispatcher answers for an opcode byte: one of exactly thirteen handlers (R104). -/
inductive Handler where
  | hlt | ldi | prn | mul | add | push | pop | call | ret | cmp | jmp | jeq | jne
  deriving DecidableEq, Repr

/-- The four formats of an instruction (R72). -/
inductive Format where
  /-- One byte: the opcode. -/
  | f0
  /-- Two bytes: the opcode and a register index `a`. -/
  | f1
  /-- Three bytes: the opcode and two register indices `a`, `b`. -/
  | f2r
  /-- Three bytes: the opcode, a register index `a` and an immediate `b`. -/
  | f2i
  deriving DecidableEq, Repr

/-- The parameter `OPCODE_MAP`: the opcode byte of each handler (R6, R76). -/
abbrev OpcodeMap := Handler → Byte

/-- The parameters a model takes as fields of its configuration (R6). -/
structure Config where
  /-- `OPCODE_MAP` (decision D1). -/
  opcodes : OpcodeMap
  /-- `SP_RESET`, the value of `x[7]` after reset (decision D5). -/
  spReset : Byte
  /-- `CMP_STICKY_E`: whether CMP leaves E alone when its operands differ (decision D4). -/
  cmpStickyE : Bool

end Sys2Proof
end

