-- ==== Sys2Proof/Syntax.lean ====
section
/-! DEFINITION. The thirteen instructions, one constructor for each row of `spec/opcode_table.json` (R76). -/

namespace Sys2Proof

/-- An instruction with its operand bytes as they stand in memory: `a` is the byte at `pc + 1`, `b` the byte at
`pc + 2` (R75). A byte in a register position is the whole byte, not masked (R73); whether it names a register is
`Instr.wf`, and an instruction that fails it raises InvalidRegister when it is executed (R99). -/
inductive Instr where
  /-- Halt the engine (R110). -/
  | hlt
  /-- Load the immediate `b` into register `a` (R111). -/
  | ldi (a b : Byte)
  /-- Emit register `a` (R112). -/
  | prn (a : Byte)
  /-- Multiply register `a` by register `b` (R120). -/
  | mul (a b : Byte)
  /-- Add register `b` to register `a` (R121). -/
  | add (a b : Byte)
  /-- Push register `a` (R131). -/
  | push (a : Byte)
  /-- Pop into register `a` (R132). -/
  | pop (a : Byte)
  /-- Call the subroutine whose address register `a` holds (R141). -/
  | call (a : Byte)
  /-- Return from a subroutine (R142). -/
  | ret
  /-- Compare registers `a` and `b` (R122). -/
  | cmp (a b : Byte)
  /-- Jump to the address in register `a` (R143). -/
  | jmp (a : Byte)
  /-- Jump to the address in register `a` if E is set (R144). -/
  | jeq (a : Byte)
  /-- Jump to the address in register `a` if E is clear (R145). -/
  | jne (a : Byte)
  deriving DecidableEq, Repr

end Sys2Proof
end

