-- ==== Sys2Proof/WellFormed.lean ====
section
/-! DEFINITION. Which instructions pass register validation: `spec/30_encoding.md` R73, `spec/40_engine_cycle.md` R99. -/

namespace Sys2Proof

/-- The byte names a register: its value is 0..7 (R73). -/
def Byte.isReg (v : Byte) : Bool := v.toNat < 8

/-- Every operand byte in a register position names a register; the immediate of LDI is not checked (R99). -/
def Instr.wf : Instr → Bool
  | .hlt => true
  | .ldi a _ => Byte.isReg a
  | .prn a => Byte.isReg a
  | .mul a b => Byte.isReg a && Byte.isReg b
  | .add a b => Byte.isReg a && Byte.isReg b
  | .push a => Byte.isReg a
  | .pop a => Byte.isReg a
  | .call a => Byte.isReg a
  | .ret => true
  | .cmp a b => Byte.isReg a && Byte.isReg b
  | .jmp a => Byte.isReg a
  | .jeq a => Byte.isReg a
  | .jne a => Byte.isReg a

end Sys2Proof
end

