-- ==== Sys2Proof/Decode.lean ====
section
/-! DEFINITION. The dispatcher, the decoder and the encoder: `spec/30_encoding.md` R70-R81,
`spec/40_engine_cycle.md` R97 and R104. -/

namespace Sys2Proof

/-- Every handler once, in the order of the opcode table (R76). -/
def Handler.all : List Handler :=
  [.hlt, .ldi, .prn, .mul, .add, .push, .pop, .call, .ret, .cmp, .jmp, .jeq, .jne]

/-- The default of `OPCODE_MAP` (R76; the values are the LS-8 ones, adopted by decision D1: PRESUMED, log entry 3). -/
def OpcodeMap.standard : OpcodeMap
  | .hlt => 0x01
  | .ldi => 0x82
  | .prn => 0x47
  | .mul => 0xA2
  | .add => 0xA0
  | .push => 0x45
  | .pop => 0x46
  | .call => 0x50
  | .ret => 0x11
  | .cmp => 0xA7
  | .jmp => 0x54
  | .jeq => 0x55
  | .jne => 0x56

/-- The format of each instruction (R72, R76). -/
def Handler.format : Handler → Format
  | .hlt => .f0
  | .ldi => .f2i
  | .prn => .f1
  | .mul => .f2r
  | .add => .f2r
  | .push => .f1
  | .pop => .f1
  | .call => .f1
  | .ret => .f0
  | .cmp => .f2r
  | .jmp => .f1
  | .jeq => .f1
  | .jne => .f1

/-- How many operand bytes follow the opcode (R72). -/
def Format.operandCount : Format → Nat
  | .f0 => 0
  | .f1 => 1
  | .f2r => 2
  | .f2i => 2

/-- The operand count of a handler's format (R97). -/
def Handler.operandCount (h : Handler) : Nat := h.format.operandCount

/-- `op[7:6]`, the operand count as an opcode's two high bits tell it (R71). -/
def highBits (op : Byte) : Nat := (op >>> 6).toNat

/-- What any `OPCODE_MAP` must satisfy: distinct values, and high bits equal to the operand count (R76). -/
def OpcodeMap.valid (m : OpcodeMap) : Bool :=
  (Handler.all.map m).Nodup && Handler.all.all fun h => highBits (m h) == h.operandCount

/-- The dispatcher: the handler whose opcode is this whole byte, or none (R81, R104). -/
def dispatch (m : OpcodeMap) (op : Byte) : Option Handler :=
  Handler.all.find? fun h => m h == op

/-- The instruction a handler performs on operand bytes `a` and `b`; a format with fewer operands ignores the rest (R72). -/
def Handler.instr (h : Handler) (a b : Byte) : Instr :=
  match h with
  | .hlt => .hlt
  | .ldi => .ldi a b
  | .prn => .prn a
  | .mul => .mul a b
  | .add => .add a b
  | .push => .push a
  | .pop => .pop a
  | .call => .call a
  | .ret => .ret
  | .cmp => .cmp a b
  | .jmp => .jmp a
  | .jeq => .jeq a
  | .jne => .jne a

/-- Why a list of bytes is no instruction. -/
inductive DecodeError where
  /-- The byte at this offset (0 the opcode, 1 the first operand, 2 the second) is missing. -/
  | missing (offset : Nat)
  /-- The first byte is the opcode of no instruction (R78). -/
  | unknownOpcode (op : Byte)
  deriving DecidableEq, Repr

/-- Takes a handler's operand bytes from the bytes after the opcode; answers the instruction and what is left (R70). -/
def takeOperands (h : Handler) (bytes : List Byte) : Except DecodeError (Instr × List Byte) :=
  match h.operandCount, bytes with
  | 0, rest => .ok (h.instr 0 0, rest)
  | 1, a :: rest => .ok (h.instr a 0, rest)
  | 1, [] => .error (.missing 1)
  | _, a :: b :: rest => .ok (h.instr a b, rest)
  | _, [_] => .error (.missing 2)
  | _, [] => .error (.missing 1)

/-- The decoder under any opcode map: the first instruction of a list of bytes and the bytes after it (R70, R81). -/
def decodeWith (m : OpcodeMap) : List Byte → Except DecodeError (Instr × List Byte)
  | [] => .error (.missing 0)
  | op :: rest =>
    match dispatch m op with
    | none => .error (.unknownOpcode op)
    | some h => takeOperands h rest

/-- The decoder under the default opcode map. -/
def decode (bytes : List Byte) : Except DecodeError (Instr × List Byte) := decodeWith OpcodeMap.standard bytes

/-- The handler of an instruction. -/
def Instr.handler : Instr → Handler
  | .hlt => .hlt
  | .ldi _ _ => .ldi
  | .prn _ => .prn
  | .mul _ _ => .mul
  | .add _ _ => .add
  | .push _ => .push
  | .pop _ => .pop
  | .call _ => .call
  | .ret => .ret
  | .cmp _ _ => .cmp
  | .jmp _ => .jmp
  | .jeq _ => .jeq
  | .jne _ => .jne

/-- The operand bytes of an instruction at ascending addresses (R75). -/
def Instr.operandBytes : Instr → List Byte
  | .hlt => []
  | .ldi a b => [a, b]
  | .prn a => [a]
  | .mul a b => [a, b]
  | .add a b => [a, b]
  | .push a => [a]
  | .pop a => [a]
  | .call a => [a]
  | .ret => []
  | .cmp a b => [a, b]
  | .jmp a => [a]
  | .jeq a => [a]
  | .jne a => [a]

/-- The encoder under any opcode map: the opcode byte and then the operand bytes (R72, R75). -/
def encodeWith (m : OpcodeMap) (i : Instr) : List Byte := m i.handler :: i.operandBytes

/-- The encoder under the default opcode map. -/
def encode (i : Instr) : List Byte := encodeWith OpcodeMap.standard i

/-- The length of an instruction in bytes, `1 + N` (R71). -/
def Instr.length (i : Instr) : Nat := 1 + i.handler.operandCount

/-- The longest instruction's worth of bytes that a word of the opcode table stands for: bits 7..0 are the byte at
the lowest address, bits at and above `nbits` are zero. -/
def tableBytes (nbits w : Nat) : List Byte :=
  let v := w % 2 ^ nbits
  [BitVec.ofNat 8 v, BitVec.ofNat 8 (v / 256), BitVec.ofNat 8 (v / 65536)]

/-- The instruction the decoder reads from a word of the opcode table; none where it refuses. -/
def decodeTableWord (nbits w : Nat) : Option Instr :=
  match decode (tableBytes nbits w) with
  | .ok (i, _) => some i
  | .error _ => none

end Sys2Proof
end

