-- ==== Sys2Proof/Machine/Params.lean ====
section
/-! DEFINITION. The configuration the fixed names of this package run under: every parameter of
`spec/00_scope.md` R6 at its stated default. -/

namespace Sys2Proof

/-- The default configuration (R6): the opcode map of R76, `SP_RESET = 0xF4` (PRESUMED, log entry 4) and
`CMP_STICKY_E = false` (log entry 8). -/
def Config.standard : Config where
  opcodes := OpcodeMap.standard
  spReset := 0xF4
  cmpStickyE := false

/-- `GPR_RESET`: what `x[0]` .. `x[6]` hold after reset (R6, R39; decision D6: PRESUMED, log entry 5). -/
def gprReset : Byte := 0x00

end Sys2Proof
end

