-- ==== Sys2Proof/Machine/State.lean ====
section
/-! DEFINITION. The state of the engine, its run state and fault record, the reasons a step can stop, and the state
after reset: `spec/10_state.md`, `spec/70_reset_and_hazards.md` R190. -/

namespace Sys2Proof.Machine

/-- The run state `rs` (R31, R32). -/
inductive RunState where
  | running
  /-- Entered by HLT; left only by reset. -/
  | halted
  /-- Entered by a step that raises a fault; left only by reset. -/
  | faulted
  deriving DecidableEq, Repr

/-- The four kinds of fault (R160); the taxonomy is closed. -/
inductive FaultKind where
  | outOfBounds
  | invalidRegister
  | unsupportedALUOperation
  | unknownOpcode
  deriving DecidableEq, Repr

/-- A fault as a step raises it, `raise K(info)` (R9): the kind with the information that kind reports (R33). -/
inductive Raise where
  /-- An access at `addr`, which is 256 or more (R161). -/
  | outOfBounds (addr : Addr)
  /-- The operand byte `index` is 8 or more (R162). -/
  | invalidRegister (index : Byte)
  /-- The ALU was asked for the operation `code`, which it does not have (R163). -/
  | unsupportedALUOperation (code : Byte)
  /-- The byte `op` is no opcode (R164). -/
  | unknownOpcode (op : Byte)
  deriving DecidableEq, Repr

/-- The fault record (R33). -/
structure FaultRecord where
  /-- `err_kind`. -/
  kind : FaultKind
  /-- `err_pc`: the program counter at the start of the faulting step. -/
  pc : Addr
  /-- `err_info`. -/
  info : Addr
  deriving DecidableEq, Repr

/-- Memory as the list of its cells that do not hold 0, at rising addresses (R35; log entry 16). -/
abbrev Memory := List Host.Cell

/-- Everything the spec gives the engine to hold between steps (R13). -/
structure State where
  /-- The register file `x[0]` .. `x[7]`; `x[7]` is the stack pointer (R20, R21). -/
  regs : Vector Byte 8
  /-- The program counter (R24). -/
  pc : Addr
  /-- The flags register; bit 0 is E (R28). -/
  fl : Byte
  /-- The run state (R31). -/
  rs : RunState
  /-- The fault record, absent until a step faults (R33, R39). -/
  faultRecord : Option FaultRecord
  /-- The 256 cells of memory (R35). -/
  mem : Memory
  /-- The values PRN has emitted, oldest first (R37). -/
  out : List Byte
  deriving DecidableEq, Repr

/-- Why there is no step. The spec's four faults are no constructors here: a step that raises one answers a next
state, whose run state is FAULTED (R166; log entry 2). -/
inductive Fault where
  /-- `step` answers this in a HALTED state: a completed run has no further step (R95). Safe: nothing can be proved of a
  state after it. -/
  | halted
  /-- `step` answers this in a FAULTED state, with the record of the fault that ended the run (R95, R169). Safe: nothing
  can be proved of a state after it. -/
  | faulted (record : Option FaultRecord)
  deriving DecidableEq, Repr

/-- Why an instruction has no meaning. -/
inductive Refusal where
  /-- An arm of `exec` answers this for an instruction that is not modelled yet. Safe: nothing can be proved of a state
  after it. No arm answers it: all thirteen instructions are modelled. -/
  | notModelled (mnemonic : String)
  deriving DecidableEq, Repr

/-- What a step answers. -/
abbrev Outcome := Host.Outcome State Fault Refusal

/-- The machine right after reset under a configuration (R39, R190). -/
def State.resetWith (c : Config) : State where
  regs := #v[gprReset, gprReset, gprReset, gprReset, gprReset, gprReset, gprReset, c.spReset]
  pc := 0
  fl := 0
  rs := .running
  faultRecord := none
  mem := []
  out := []

/-- The machine right after reset (R39, R190). -/
def State.reset : State := State.resetWith Config.standard

end Sys2Proof.Machine
end

