-- ==== Sys2Proof/Machine/Memory.lean ====
section
/-! DEFINITION. Memory as data: reading a cell, writing a cell, and the one canonical form
(`spec/10_state.md` R35, `spec/20_memory.md` R50-R52). -/

namespace Sys2Proof.Machine

/-- The number of cells, `MEM_SIZE` (R6). -/
abbrev memSize : Nat := 256

/-- What a cell holds that no entry lists: memory is zero-initialized (R35, R39). -/
def unlistedByte : Byte := 0x00

/-- The byte in cell `a`. -/
def Memory.read : Memory → Nat → Byte
  | [], _ => unlistedByte
  | (b, v) :: m, a => if a = b then v else Memory.read m a

/-- Puts the entry for cell `a` at the front, or no entry where `v` is what an unlisted cell holds. -/
def Memory.cons (a : Nat) (v : Byte) (m : Memory) : Memory :=
  if v = unlistedByte then m else (a, v) :: m

/-- Memory with `v` in cell `a` and every other cell as before (R52). -/
def Memory.write : Memory → Nat → Byte → Memory
  | [], a, v => Memory.cons a v []
  | (b, w) :: m, a, v =>
    if a < b then Memory.cons a v ((b, w) :: m)
    else if a = b then Memory.cons a v m
    else (b, w) :: Memory.write m a v

/-- The canonical form from address `lo` on: rising addresses below `memSize`, no entry for a cell that holds what an
unlisted one does. -/
def Memory.wfFrom : Nat → Memory → Bool
  | _, [] => true
  | lo, (a, v) :: m => decide (lo ≤ a) && decide (a < memSize) && decide (v ≠ unlistedByte) && Memory.wfFrom (a + 1) m

/-- Memory is in its canonical form, so that equal memories are equal data. -/
def Memory.wf (m : Memory) : Bool := Memory.wfFrom 0 m

end Sys2Proof.Machine
end

