-- ==== Sys2Proof/Machine/Ops.lean ====
section
/-! DEFINITION. The named operations over registers, memory, program counter and output, and the one operation that
takes a fault: `spec/00_scope.md` R9, `spec/40_engine_cycle.md` R107, `spec/60_exceptions.md` R166. -/

namespace Sys2Proof.Machine

/-- `SP_INDEX`: the register used as stack pointer (R6, R21). -/
def spIndex : Reg := 7

/-- `zext_9` (R8). -/
def zext9 (v : Byte) : Addr := v.setWidth 9

/-- The register file's `get` (R107). -/
def State.getReg (s : State) (r : Reg) : Byte := s.regs[r]

/-- The register file's `set` (R107). -/
def State.setReg (s : State) (r : Reg) (v : Byte) : State := { s with regs := s.regs.set r v }

/-- The byte in memory cell `a`; not bounds-checked. -/
def State.cell (s : State) (a : Nat) : Byte := Memory.read s.mem a

/-- `MemRead(addr, 1)` (R51). -/
def State.memRead (s : State) (addr : Addr) : Except Raise Byte :=
  if addr.toNat < memSize then .ok (s.cell addr.toNat) else .error (.outOfBounds addr)

/-- `MemWrite(addr, 1, v)` (R52). -/
def State.memWrite (s : State) (addr : Addr) (v : Byte) : Except Raise State :=
  if addr.toNat < memSize then .ok { s with mem := Memory.write s.mem addr.toNat v } else .error (.outOfBounds addr)

/-- `Emit(v)` (R9, R37). -/
def State.emit (s : State) (v : Byte) : State := { s with out := s.out ++ [v] }

/-- `pc <- pc + n` for an instruction of `n` bytes (R25). -/
def State.advance (s : State) (n : Addr) : State := { s with pc := s.pc + n }

/-- `pc <- zext_9(v)`: a control transfer (R140). -/
def State.jumpTo (s : State) (v : Byte) : State := { s with pc := zext9 v }

/-- `fl <- v`. -/
def State.setFl (s : State) (v : Byte) : State := { s with fl := v }

/-- `rs <- HALTED` (R110). -/
def State.halt (s : State) : State := { s with rs := .halted }

/-- The stack pointer (R21). -/
def State.sp (s : State) : Byte := s.getReg spIndex

/-- `x[7] <- (x[7] - 1) mod 256` (R133). -/
def State.decSp (s : State) : State := s.setReg spIndex (s.sp - 1)

/-- `x[7] <- (x[7] + 1) mod 256` (R133). -/
def State.incSp (s : State) : State := s.setReg spIndex (s.sp + 1)

/-- Writes the byte on top of the stack, at the address the stack pointer holds (R130). -/
def State.writeTop (s : State) (v : Byte) : Except Raise State := s.memWrite (zext9 s.sp) v

/-- Reads the byte on top of the stack (R130). -/
def State.readTop (s : State) : Except Raise Byte := s.memRead (zext9 s.sp)

/-- The kind of a raised fault (R160). -/
def Raise.kind : Raise → FaultKind
  | .outOfBounds _ => .outOfBounds
  | .invalidRegister _ => .invalidRegister
  | .unsupportedALUOperation _ => .unsupportedALUOperation
  | .unknownOpcode _ => .unknownOpcode

/-- The information of a raised fault as `err_info` holds it (R33). -/
def Raise.info : Raise → Addr
  | .outOfBounds addr => addr
  | .invalidRegister index => zext9 index
  | .unsupportedALUOperation code => zext9 code
  | .unknownOpcode op => zext9 op

/-- The numeric code of a fault kind (R160). -/
def FaultKind.code : FaultKind → Nat
  | .outOfBounds => 0
  | .invalidRegister => 1
  | .unsupportedALUOperation => 2
  | .unknownOpcode => 3

/-- Fault entry (R166): the record is written and the engine is FAULTED; everything else is as it was at the start of
the step, which is the state this is applied to. There is no return from a fault (R168), so no operation stands beside
this one to undo it. -/
def State.raise (s : State) (r : Raise) : State :=
  { s with rs := .faulted, faultRecord := some { kind := r.kind, pc := s.pc, info := r.info } }

/-- Ends an instruction that began in `s`: its next state, or fault entry from `s` where one of its operations raised a
fault, so that nothing it wrote earlier is kept (R101, R166). -/
def State.complete (s : State) (result : Except Raise State) : Outcome :=
  match result with
  | .ok t => .next t
  | .error r => .next (s.raise r)

end Sys2Proof.Machine
end

