-- ==== Sys2Proof/Machine/Alu.lean ====
section
/-! DEFINITION. The ALU: `spec/40_engine_cycle.md` R105 and R106. -/

namespace Sys2Proof.Machine

/-- What the ALU can be asked for. Its own enumeration is ADD and MUL (R105); its argument is wider by `other`, an
operation it does not have, so that the failure of R106 has a case here (R163; log entry 13). -/
inductive AluOperation where
  | add
  | mul
  | other (code : Byte)
  deriving DecidableEq, Repr

/-- The ALU's result on two register values: formed exactly and brought to 8 bits; no carry, no flag (R105, R123). -/
def alu : AluOperation → Byte → Byte → Except Raise Byte
  | .add, p, q => .ok (BitVec.ofNat 8 (p.toNat + q.toNat))
  | .mul, p, q => .ok (BitVec.ofNat 8 (p.toNat * q.toNat))
  | .other code, _, _ => .error (.unsupportedALUOperation code)

/-- `apply(operation, dest_index, src_index)`: reads both registers, computes, writes the destination (R105). -/
def State.aluApply (s : State) (op : AluOperation) (dest src : Reg) : Except Raise State := do
  let v ← alu op (s.getReg dest) (s.getReg src)
  pure (s.setReg dest v)

end Sys2Proof.Machine
end

