-- ==== Sys2Proof/Machine/Flags.lean ====
section
/-! DEFINITION. The flags register: one equality bit (`spec/10_state.md` R28-R30). -/

namespace Sys2Proof.Machine

/-- The equality bit E is bit 0 of `fl` (R28). -/
def flagE (fl : Byte) : Bool := fl[0]

/-- `fl[0] <- e`; bits 7..1 keep their values (R122). -/
def withFlagE (fl : Byte) (e : Bool) : Byte := (fl &&& 0xFE) ||| (if e then 0x01 else 0x00)

/-- The flags after CMP of `p` and `q`: E is set if they are equal; if not, it is cleared, or left alone under
`CMP_STICKY_E` (R122). -/
def compareFlags (sticky : Bool) (fl p q : Byte) : Byte :=
  if p = q then withFlagE fl true
  else if sticky then fl
  else withFlagE fl false

/-- E of a state (R30). -/
def State.e (s : State) : Bool := flagE s.fl

end Sys2Proof.Machine
end

