-- ==== Sys2Proof/Machine/Operands.lean ====
section
/-! DEFINITION. The operand forms: a register index is validated, an immediate is taken as it stands
(`spec/30_encoding.md` R73, R74, `spec/40_engine_cycle.md` R99). -/

namespace Sys2Proof.Machine

/-- Register validation of one operand byte: the register it names, or InvalidRegister(byte) (R99). -/
def checkReg (v : Byte) : Except Raise Reg :=
  if h : v.toNat < 8 then .ok ⟨v.toNat, h⟩ else .error (.invalidRegister v)

/-- Register validation of the two operand bytes of format F2R, `a` before `b` (R99). -/
def checkRegs (a b : Byte) : Except Raise (Reg × Reg) := do
  let ra ← checkReg a
  let rb ← checkReg b
  pure (ra, rb)

/-- The immediate operand of LDI: the byte unchanged, not extended, scaled or validated (R74). -/
def immediate (b : Byte) : Byte := b

end Sys2Proof.Machine
end

