-- ==== Sys2Proof/Machine/Arithmetic.lean ====
section
/-! DEFINITION. MUL, ADD, CMP: `spec/42_arithmetic.md`. -/

namespace Sys2Proof.Machine

/-- An arithmetic instruction of format F2R: the ALU with `dest_index = a` and `src_index = b` (R105). -/
def State.arith (s : State) (op : AluOperation) (a b : Byte) : Outcome :=
  s.complete do
    let (ra, rb) ← checkRegs a b
    let t ← s.aluApply op ra rb
    pure (t.advance 3)

/-- MUL: `x[a] <- (x[a] * x[b]) mod 256` (R120). -/
def execMul (a b : Byte) (s : State) : Outcome := s.arith .mul a b

/-- ADD: `x[a] <- (x[a] + x[b]) mod 256` (R121). -/
def execAdd (a b : Byte) (s : State) : Outcome := s.arith .add a b

/-- CMP under either value of `CMP_STICKY_E` (R122). -/
def execCmpWith (sticky : Bool) (a b : Byte) (s : State) : Outcome :=
  s.complete do
    let (ra, rb) ← checkRegs a b
    pure ((s.setFl (compareFlags sticky s.fl (s.getReg ra) (s.getReg rb))).advance 3)

/-- CMP: E tells whether the two registers are equal (R122; log entry 8). -/
def execCmp (a b : Byte) (s : State) : Outcome := execCmpWith Config.standard.cmpStickyE a b s

end Sys2Proof.Machine
end

