-- ==== Sys2Proof/Machine/Control.lean ====
section
/-! DEFINITION. CALL, RET, JMP, JEQ, JNE: `spec/44_control_transfer.md`. -/

namespace Sys2Proof.Machine

/-- The return address `pc + 2` as the one byte CALL stores, or OutOfBounds(pc + 2) where it is no valid address
(R141; log entry 12). -/
def State.returnAddress (s : State) : Except Raise Byte :=
  if s.pc.toNat + 2 < memSize then .ok ((s.pc + 2).setWidth 8) else .error (.outOfBounds (s.pc + 2))

/-- CALL: check the return address, push it, jump to `x[a]`, read after the decrement of SP (R141; log entry 10). -/
def execCall (a : Byte) (s : State) : Outcome :=
  s.complete do
    let r ← checkReg a
    let ret ← s.returnAddress
    let t := s.decSp
    let u ← t.writeTop ret
    pure (u.jumpTo (u.getReg r))

/-- RET: pop the return address and go there (R142). -/
def execRet (s : State) : Outcome :=
  s.complete do
    let v ← s.readTop
    pure (s.incSp.jumpTo v)

/-- JMP: `pc <- zext_9(x[a])` (R143). -/
def execJmp (a : Byte) (s : State) : Outcome :=
  s.complete do
    let r ← checkReg a
    pure (s.jumpTo (s.getReg r))

/-- A conditional jump of two bytes: to `x[a]` if `taken`, else on to the next instruction (R144, R145). -/
def State.branch (s : State) (taken : Bool) (a : Byte) : Outcome :=
  s.complete do
    let r ← checkReg a
    pure (if taken then s.jumpTo (s.getReg r) else s.advance 2)

/-- JEQ: taken if E is set (R144). -/
def execJeq (a : Byte) (s : State) : Outcome := s.branch s.e a

/-- JNE: taken if E is clear (R145). -/
def execJne (a : Byte) (s : State) : Outcome := s.branch (!s.e) a

end Sys2Proof.Machine
end

