-- ==== Sys2Proof/Machine/Stack.lean ====
section
/-! DEFINITION. PUSH, POP: `spec/43_stack.md`. Effects happen in the order the rules write them (R10), which is what
`PUSH R7` and `POP R7` show (log entry 10). -/

namespace Sys2Proof.Machine

/-- PUSH: decrement SP, store `x[a]`, read after the decrement (R131). -/
def execPush (a : Byte) (s : State) : Outcome :=
  s.complete do
    let r ← checkReg a
    let t := s.decSp
    let u ← t.writeTop (t.getReg r)
    pure (u.advance 2)

/-- POP: load `x[a]`, then increment SP, read after the load (R132). -/
def execPop (a : Byte) (s : State) : Outcome :=
  s.complete do
    let r ← checkReg a
    let v ← s.readTop
    pure ((s.setReg r v).incSp.advance 2)

end Sys2Proof.Machine
end

