-- ==== Sys2Proof/Machine/SystemData.lean ====
section
/-! DEFINITION. HLT, LDI, PRN: `spec/41_system_and_data.md`. -/

namespace Sys2Proof.Machine

/-- HLT: the engine is HALTED, `pc` stays at the HLT byte (R110; log entry 9). -/
def execHlt (s : State) : Outcome := .next s.halt

/-- LDI: `x[a] <- b` (R111). -/
def execLdi (a b : Byte) (s : State) : Outcome :=
  s.complete do
    let r ← checkReg a
    pure ((s.setReg r (immediate b)).advance 3)

/-- PRN: `Emit(x[a])` (R112). -/
def execPrn (a : Byte) (s : State) : Outcome :=
  s.complete do
    let r ← checkReg a
    pure ((s.emit (s.getReg r)).advance 2)

end Sys2Proof.Machine
end

