-- ==== Sys2Proof/Machine/Fetch.lean ====
section
/-! DEFINITION. Fetching an instruction and the body of a step: `spec/40_engine_cycle.md` R95-R102. -/

namespace Sys2Proof.Machine

/-- Phase 2, dispatch: the handler of the opcode byte, or UnknownOpcode(op) (R97). -/
def dispatchOrRaise (m : OpcodeMap) (op : Byte) : Except Raise Handler :=
  match dispatch m op with
  | some h => .ok h
  | none => .error (.unknownOpcode op)

/-- Phase 3, one operand byte: read if the format has it; the 0 answered otherwise is used by no instruction (R98). -/
def State.readOperand (s : State) (has : Bool) (addr : Addr) : Except Raise Byte :=
  if has then s.memRead addr else .ok 0

/-- Phases 1 to 3: the opcode fetch, dispatch, and the fetch of every operand byte the format has (R96-R98). -/
def State.fetch (m : OpcodeMap) (s : State) : Except Raise Instr := do
  let op ← s.memRead s.pc
  let h ← dispatchOrRaise m op
  let a ← s.readOperand (decide (1 ≤ h.operandCount)) (s.pc + 1)
  let b ← s.readOperand (decide (h.operandCount = 2)) (s.pc + 2)
  pure (h.instr a b)

/-- A step (R102): none outside RUNNING (R95); otherwise fetch, and then `ex`, which performs phases 4 and 5 of the
instruction fetched (R99, R100). A fault of the fetch is taken from the state as it stands. -/
def runStep (m : OpcodeMap) (ex : Instr → State → Outcome) (s : State) : Outcome :=
  match s.rs with
  | .halted => .fault .halted
  | .faulted => .fault (.faulted s.faultRecord)
  | .running =>
    match s.fetch m with
    | .ok i => ex i s
    | .error r => .next (s.raise r)

/-- Writes bytes to ascending cells from `a` on; a byte for an address outside memory is left out. -/
def Memory.place (m : Memory) (a : Nat) : List Byte → Memory
  | [] => m
  | v :: vs => Memory.place (if a < memSize then Memory.write m a v else m) (a + 1) vs

/-- Stores bytes where the next step fetches its instruction. -/
def State.placeAtPc (s : State) (bytes : List Byte) : State :=
  { s with mem := Memory.place s.mem s.pc.toNat bytes }

end Sys2Proof.Machine
end

