-- ==== Sys2Proof/Machine/Step.lean ====
section
/-! DEFINITION. The step of the engine (`spec/40_engine_cycle.md` R102), and how a word of the opcode table is placed
for it. -/

namespace Sys2Proof.Machine

/-- One step of the engine under the default configuration (R95, R102). -/
def step (s : State) : Host.Outcome State Fault Refusal := runStep Config.standard.opcodes exec s

/-- `s` with the instruction of a word of the opcode table stored where `step` fetches next (log entry 15). -/
def State.withFetchWord (s : State) (nbits w : Nat) : State := s.placeAtPc (tableBytes nbits w)

end Sys2Proof.Machine
end

