-- ==== Sys2Proof/Machine/Launch.lean ====
section
/-! DEFINITION. What the host does before a run: `spec/70_reset_and_hazards.md` R193. -/

namespace Sys2Proof.Machine

/-- Writes the bytes of an image to ascending addresses from `addr` on, through the memory contract: the first byte
for an address of 256 or more fails with OutOfBounds (R193). -/
def State.loadFrom (addr : Addr) : List Byte → State → Except Raise State
  | [], s => .ok s
  | v :: vs, s =>
    match s.memWrite addr v with
    | .ok t => State.loadFrom (addr + 1) vs t
    | .error r => .error r

/-- `launch(image)` under a configuration: reset, then the image at address 0 upward; the failure of an image that does
not fit is the loader's, and leaves no machine (R193). -/
def launchWith (c : Config) (image : List Byte) : Except Raise State :=
  State.loadFrom 0 image (State.resetWith c)

/-- `launch(image)` under the default configuration. -/
def launch (image : List Byte) : Except Raise State := launchWith Config.standard image

end Sys2Proof.Machine
end

