-- ==== Sys2Proof/Machine/Parametric.lean ====
section
/-! DEFINITION. The same machine under any configuration (`spec/00_scope.md` R6): the opcode map reaches the fetch,
`CMP_STICKY_E` reaches CMP, `SP_RESET` reaches `State.resetWith`. `exec` and `step` are its case `Config.standard`. -/

namespace Sys2Proof.Machine

/-- The meaning of each instruction under a configuration; only CMP depends on one (R6). -/
def execWith (c : Config) (i : Instr) (s : State) : Outcome :=
  match i with
  | .hlt => execHlt s
  | .ldi a b => execLdi a b s
  | .prn a => execPrn a s
  | .mul a b => execMul a b s
  | .add a b => execAdd a b s
  | .push a => execPush a s
  | .pop a => execPop a s
  | .call a => execCall a s
  | .ret => execRet s
  | .cmp a b => execCmpWith c.cmpStickyE a b s
  | .jmp a => execJmp a s
  | .jeq a => execJeq a s
  | .jne a => execJne a s

/-- One step of the engine under a configuration (R102). -/
def stepWith (c : Config) (s : State) : Outcome := runStep c.opcodes (execWith c) s

end Sys2Proof.Machine
end

