-- ==== Sys2Proof/Safety.lean ====
section
/-! DEFINITION. The terms claims are stated in: what a run is and how it ends, the facts every state of a run meets,
the bytes at the program counter, the read and write table of the registers, and the fault a step raises. -/

namespace Sys2Proof.Machine

/-- A completed run ends in a HALTED state, with no fault recorded (R169, R201). -/
def State.completed (s : State) : Bool := decide (s.rs = .halted) && s.faultRecord.isNone

/-- An aborted run ends in a FAULTED state (R201). -/
def State.aborted (s : State) : Bool := decide (s.rs = .faulted) && s.faultRecord.isSome

/-- `t` comes from `s` by zero or more steps of the machine under a configuration (R103). -/
inductive Reaches (c : Config) : State → State → Prop where
  | refl (s : State) : Reaches c s s
  | step {s t u : State} : Reaches c s t → stepWith c t = .next u → Reaches c s u

/-- What a fault record can hold (R33, R160, R161): `err_info` is 256 for OutOfBounds, a byte of 8 or more for
InvalidRegister, any byte for UnknownOpcode; UnsupportedALUOperation is never recorded (R106). -/
def FaultRecord.legal (r : FaultRecord) : Bool :=
  match r.kind with
  | .outOfBounds => decide (r.info.toNat = 256)
  | .invalidRegister => decide (8 ≤ r.info.toNat) && decide (r.info.toNat < 256)
  | .unsupportedALUOperation => false
  | .unknownOpcode => decide (r.info.toNat < 256)

/-- The run state and the fault record agree: a record is there exactly when the engine is FAULTED (R33), it is legal,
and `pc` still points at the instruction that faulted (R167). -/
def State.recordAgrees (s : State) : Bool :=
  match s.faultRecord with
  | none => decide (s.rs ≠ .faulted)
  | some r => decide (s.rs = .faulted) && r.legal && decide (r.pc = s.pc)

/-- What holds of every state of a run: memory is in canonical form, `pc` is in 0..256 (R26), bits 7..1 of `fl` are 0
(R28), and the fault record agrees with the run state. -/
structure State.Inv (s : State) : Prop where
  mem : Memory.wf s.mem = true
  pc : s.pc.toNat ≤ 256
  fl : s.fl.toNat ≤ 1
  record : s.recordAgrees = true

/-- These bytes stand at ascending addresses from `pc` on, all of them inside memory. -/
def State.holdsAtPc (s : State) (bytes : List Byte) : Prop :=
  s.pc.toNat + bytes.length ≤ memSize ∧
    ∀ (k : Nat) (h : k < bytes.length), s.cell (s.pc.toNat + k) = bytes[k]

/-- The engine is RUNNING and `pc` is the address of a handler's opcode byte. -/
def State.atOpcode (s : State) (h : Handler) : Prop :=
  s.rs = .running ∧ s.pc.toNat < memSize ∧ s.cell s.pc.toNat = Config.standard.opcodes h

/-- The bytes of the next instruction that are inside memory: those at `pc`, `pc + 1` and `pc + 2` below `memSize`. -/
def State.window (s : State) : List Byte :=
  (((List.range 3).map (s.pc.toNat + ·)).filter (· < memSize)).map s.cell

/-- The operand byte `a` is the index of register `r` (R73). -/
def names (a : Byte) (r : Reg) : Bool := a.toNat == r.val

/-- The column 'Reads' of R23: which registers an instruction reads, when E is `e`. -/
def readsReg (e : Bool) : Instr → Reg → Bool
  | .hlt, _ => false
  | .ldi _ _, _ => false
  | .prn a, r => names a r
  | .mul a b, r => names a r || names b r
  | .add a b, r => names a r || names b r
  | .cmp a b, r => names a r || names b r
  | .push a, r => r == spIndex || names a r
  | .pop _, r => r == spIndex
  | .call a, r => r == spIndex || names a r
  | .ret, r => r == spIndex
  | .jmp a, r => names a r
  | .jeq a, r => e && names a r
  | .jne a, r => !e && names a r

/-- The column 'Writes' of R23: which registers an instruction writes. -/
def writesReg : Instr → Reg → Bool
  | .hlt, _ => false
  | .ldi a _, r => names a r
  | .prn _, _ => false
  | .mul a _, r => names a r
  | .add a _, r => names a r
  | .cmp _ _, _ => false
  | .push _, r => r == spIndex
  | .pop a, r => names a r || r == spIndex
  | .call _, r => r == spIndex
  | .ret, r => r == spIndex
  | .jmp _, _ => false
  | .jeq _, _ => false
  | .jne _, _ => false

/-- The list of R165, read from the bytes in memory: the first check a step of a RUNNING engine fails, if any. -/
def State.firstFault (c : Config) (s : State) : Option Raise :=
  let pc := s.pc.toNat
  if memSize ≤ pc then some (.outOfBounds s.pc)
  else
    match dispatch c.opcodes (s.cell pc) with
    | none => some (.unknownOpcode (s.cell pc))
    | some h =>
      if 1 ≤ h.operandCount ∧ memSize ≤ pc + 1 then some (.outOfBounds (s.pc + 1))
      else if h.operandCount = 2 ∧ memSize ≤ pc + 2 then some (.outOfBounds (s.pc + 2))
      else if 1 ≤ h.operandCount ∧ 8 ≤ (s.cell (pc + 1)).toNat then some (.invalidRegister (s.cell (pc + 1)))
      else if h.format = .f2r ∧ 8 ≤ (s.cell (pc + 2)).toNat then some (.invalidRegister (s.cell (pc + 2)))
      else if h = .call ∧ memSize ≤ pc + 2 then some (.outOfBounds 256)
      else none

end Sys2Proof.Machine
end

