-- ==== Sys2Proof/Certificates/Slice0/Obligations.lean ====
section
/-! DEFINITION. The statements about this model, for the provers. A statement that rests on a decision of the spec
(a row D of `spec/92_eei_decisions.md`) or on a choice of the model (an entry of the assumption log) says so. -/

open Sys2Proof Sys2Proof.Machine

/-! Encoding. -/

/-- One word of each row of the opcode table, written out from R72, R75 and R76, decodes to its instruction. The opcode
byte values are the default of OPCODE_MAP (decision D1, log entry 3); the operand order is decision D23. -/
def Obligations.OpcodeTableWordsDecode : Prop :=
  decode [0b00000001#8] = .ok (.hlt, []) ∧
  decode [0b10000010#8, 0x00, 0x08] = .ok (.ldi 0 8, []) ∧
  decode [0b01000111#8, 0x07] = .ok (.prn 7, []) ∧
  decode [0b10100010#8, 0x00, 0x01] = .ok (.mul 0 1, []) ∧
  decode [0b10100000#8, 0x05, 0x06] = .ok (.add 5 6, []) ∧
  decode [0b01000101#8, 0x02] = .ok (.push 2, []) ∧
  decode [0b01000110#8, 0x03] = .ok (.pop 3, []) ∧
  decode [0b01010000#8, 0x01] = .ok (.call 1, []) ∧
  decode [0b00010001#8] = .ok (.ret, []) ∧
  decode [0b10100111#8, 0x04, 0x00] = .ok (.cmp 4 0, []) ∧
  decode [0b01010100#8, 0x03] = .ok (.jmp 3, []) ∧
  decode [0b01010101#8, 0x02] = .ok (.jeq 2, []) ∧
  decode [0b01010110#8, 0x06] = .ok (.jne 6, [])

/-- Under every legal opcode map, decoding the encoding of any instruction, whatever follows it, gives the instruction
with every operand, and leaves what follows. It holds for every operand byte, so for every well-formed instruction. -/
def Obligations.DecodeInvertsEncode : Prop :=
  (∀ (m : OpcodeMap) (i : Instr) (rest : List Byte),
    m.valid = true → decodeWith m (encodeWith m i ++ rest) = .ok (i, rest)) ∧
  (∀ (i : Instr) (rest : List Byte), decode (encode i ++ rest) = .ok (i, rest))

/-- Whatever bytes decode to an instruction begin with exactly its encoding, so each has one meaning. -/
def Obligations.EncodeInvertsDecode : Prop :=
  ∀ (m : OpcodeMap) (bytes rest : List Byte) (i : Instr),
    decodeWith m bytes = .ok (i, rest) → bytes = encodeWith m i ++ rest

/-- R104: the dispatcher is a total function from a byte to one of exactly thirteen handlers or none; it maps the
thirteen values of the opcode map to their handlers and every other value to none. Said of every legal map, so it does
not rest on the byte values of decision D1. -/
def Obligations.DispatcherMapsThirteenValues : Prop :=
  (Handler.all.length = 13 ∧ Handler.all.Nodup ∧ ∀ h : Handler, h ∈ Handler.all) ∧
  ∀ m : OpcodeMap, m.valid = true →
    (∀ h : Handler, dispatch m (m h) = some h) ∧
    (∀ op : Byte, (∀ h : Handler, m h ≠ op) → dispatch m op = none)

/-- Under the default map exactly these thirteen bytes dispatch, and the map is a legal one (the values are decision D1,
log entry 3). -/
def Obligations.DispatchedBytesAreTheThirteen : Prop :=
  OpcodeMap.standard.valid = true ∧
  ∀ op : Byte, (dispatch OpcodeMap.standard op).isSome = true ↔
    op ∈ [0x01#8, 0x11, 0x45, 0x46, 0x47, 0x50, 0x54, 0x55, 0x56, 0x82, 0xA0, 0xA2, 0xA7]

/-- Under every legal map an instruction is `1 + op[7:6]` bytes long, which is 1, 2 or 3. That the two high bits are the
plain operand count is the spec's general knowledge (R71), and what makes a map legal (R76). -/
def Obligations.LengthFromTheHighBits : Prop :=
  ∀ (m : OpcodeMap) (i : Instr), m.valid = true →
    (encodeWith m i).length = 1 + highBits (m i.handler) ∧ (encodeWith m i).length ≤ 3

/-! Memory, registers, ALU. -/

/-- R51: MemRead raises OutOfBounds(addr) at 256 or more and otherwise answers the cell; the address is not reduced. -/
def Obligations.MemReadIsBoundsChecked : Prop :=
  ∀ (s : State) (addr : Addr),
    (256 ≤ addr.toNat → s.memRead addr = .error (.outOfBounds addr)) ∧
    (addr.toNat < 256 → s.memRead addr = .ok (s.cell addr.toNat))

/-- R52: MemWrite raises OutOfBounds(addr) at 256 or more, with no state changed; otherwise the cell holds the value and
every other cell keeps its own. The canonical form of memory, which the last clause keeps, is the model's. -/
def Obligations.MemWriteIsBoundsChecked : Prop :=
  ∀ (s : State) (addr : Addr) (v : Byte),
    (256 ≤ addr.toNat → s.memWrite addr v = .error (.outOfBounds addr)) ∧
    (addr.toNat < 256 → Memory.wf s.mem = true →
      ∃ t, s.memWrite addr v = .ok t ∧ t.cell addr.toNat = v ∧
        (∀ x, x ≠ addr.toNat → t.cell x = s.cell x) ∧
        t = { s with mem := t.mem } ∧ Memory.wf t.mem = true)

/-- Two memories in canonical form that read the same in all 256 cells are the same data (log entry 16). -/
def Obligations.EqualMemoriesAreEqualData : Prop :=
  ∀ m n : Memory, Memory.wf m = true → Memory.wf n = true →
    (∀ a, a < 256 → Memory.read m a = Memory.read n a) → m = n

/-- R107: `get` after `set` gives the value, `set` changes the one register and no other and nothing else; an index is
valid below 8 and fails with InvalidRegister from 8 on; a register nothing has written reads as its reset value. -/
def Obligations.RegisterFileContract : Prop :=
  (∀ (s : State) (r : Reg) (v : Byte),
    (s.setReg r v).getReg r = v ∧ (∀ i, i ≠ r → (s.setReg r v).getReg i = s.getReg i) ∧
    s.setReg r v = { s with regs := (s.setReg r v).regs }) ∧
  (∀ (a : Byte) (r : Reg), a.toNat = r.val → checkReg a = .ok r) ∧
  (∀ a : Byte, 8 ≤ a.toNat → checkReg a = .error (.invalidRegister a)) ∧
  (∀ (c : Config) (r : Reg), (State.resetWith c).getReg r = if r = spIndex then c.spReset else gprReset)

/-- R105: the ALU's ADD and MUL read both registers and write the result modulo 256 back into the destination; no other
register and nothing else of the state, so no flag, is written. The handlers of ADD and MUL call it with `dest = a` and
`src = b`; CMP does not, and writes no register. -/
def Obligations.AluContract : Prop :=
  (∀ (s : State) (d r : Reg),
    (∃ t, s.aluApply .add d r = .ok t ∧
      (t.getReg d).toNat = ((s.getReg d).toNat + (s.getReg r).toNat) % 256 ∧
      (∀ i, i ≠ d → t.getReg i = s.getReg i) ∧ t = { s with regs := t.regs }) ∧
    (∃ t, s.aluApply .mul d r = .ok t ∧
      (t.getReg d).toNat = ((s.getReg d).toNat * (s.getReg r).toNat) % 256 ∧
      (∀ i, i ≠ d → t.getReg i = s.getReg i) ∧ t = { s with regs := t.regs })) ∧
  (∀ (s : State) (a b : Byte) (d r : Reg), a.toNat = d.val → b.toNat = r.val →
    (∃ t, s.aluApply .add d r = .ok t ∧ exec (.add a b) s = .next { t with pc := s.pc + 3 }) ∧
    (∃ t, s.aluApply .mul d r = .ok t ∧ exec (.mul a b) s = .next { t with pc := s.pc + 3 })) ∧
  (∀ (s t : State) (a b : Byte), exec (.cmp a b) s = .next t → t.regs = s.regs)

/-! Reset and launch. -/

/-- What reset leaves. The 0 of `x[0]`..`x[6]` is decision D6 (log entry 5), the value of `x[7]` is the parameter
SP_RESET with default 0xF4 (decision D5, log entry 4). -/
def Obligations.ResetLeavesTheSpecsValues : Prop :=
  (∀ c : Config,
    (∀ r, r ≠ spIndex → (State.resetWith c).getReg r = 0) ∧ (State.resetWith c).getReg spIndex = c.spReset ∧
    (State.resetWith c).pc = 0 ∧ (State.resetWith c).fl = 0 ∧ (State.resetWith c).rs = .running ∧
    (State.resetWith c).faultRecord = none ∧ (∀ a, (State.resetWith c).cell a = 0) ∧ (State.resetWith c).out = []) ∧
  State.reset = State.resetWith Config.standard ∧ State.reset.sp = 0xF4

/-- `launch(image)`: an image of at most 256 bytes is in memory from address 0 on, every other cell is 0, and all else is
as reset leaves it; a longer image is refused by the loader with OutOfBounds(256) (decision D17). -/
def Obligations.LaunchLoadsTheImage : Prop :=
  ∀ (c : Config) (image : List Byte),
    (image.length ≤ 256 →
      ∃ s, launchWith c image = .ok s ∧
        (∀ (k : Nat) (h : k < image.length), s.cell k = image[k]) ∧
        (∀ a, image.length ≤ a → s.cell a = 0) ∧
        s = { State.resetWith c with mem := s.mem }) ∧
    (256 < image.length → launchWith c image = .error (.outOfBounds 256))

/-! The step. -/

/-- When the bytes at `pc` of a RUNNING engine decode to an instruction, the step is that instruction's meaning on the
same state; the step adds nothing around it. -/
def Obligations.StepRunsTheDecodedInstruction : Prop :=
  ∀ (s : State) (bytes : List Byte) (i : Instr),
    s.rs = .running → s.holdsAtPc bytes → decode bytes = .ok (i, []) → step s = exec i s

/-- A step of a RUNNING engine is decided by decoding the bytes at `pc` that are inside memory: an instruction runs, a
byte that is no opcode raises UnknownOpcode, and a missing byte raises OutOfBounds at its address. -/
def Obligations.StepIsDecodeOfTheReadableBytes : Prop :=
  ∀ s : State, s.rs = .running →
    (∀ i rest, decode s.window = .ok (i, rest) → step s = exec i s) ∧
    (∀ op, decode s.window = .error (.unknownOpcode op) → step s = .next (s.raise (.unknownOpcode op))) ∧
    (∀ k, decode s.window = .error (.missing k) → step s = .next (s.raise (.outOfBounds (s.pc + BitVec.ofNat 9 k))))

/-- A step exists exactly in a RUNNING state; in a HALTED or FAULTED one the model answers the named reason, in the
latter with the record (the model's choice, log entry 1). -/
def Obligations.StepExistsExactlyWhenRunning : Prop :=
  (∀ s : State, (∃ t, step s = .next t) ↔ s.rs = .running) ∧
  (∀ s : State, s.rs = .halted → step s = .fault .halted) ∧
  (∀ s : State, s.rs = .faulted → step s = .fault (.faulted s.faultRecord))

/-- A word of the opcode table, placed where the engine fetches next, is run by the next step (the model's own
operation, log entry 15). -/
def Obligations.PlacedTableWordRunsNext : Prop :=
  ∀ (s : State) (nbits w : Nat) (i : Instr),
    s.rs = .running → s.pc.toNat ≤ 253 → Memory.wf s.mem = true → decodeTableWord nbits w = some i →
    step (s.withFetchWord nbits w) = exec i (s.withFetchWord nbits w)

/-! The instructions: encoding, result and frame, and where each faults. A clause about `s.atOpcode h` is about the step,
since the operand fetch comes before the instruction's meaning. -/

/-- HLT. That `pc` stays is decision D13 (log entry 9). -/
def Obligations.HltRule : Prop :=
  encode .hlt = [OpcodeMap.standard .hlt] ∧
  (∀ s : State, exec .hlt s = .next { s with rs := .halted }) ∧
  (∀ s : State, s.atOpcode .hlt → step s = .next { s with rs := .halted })

/-- R111, LDI: the register holds the immediate, `pc` moves on by 3, nothing else changes; its faults. The opcode byte
is whatever the opcode map gives. -/
def Obligations.LdiRule : Prop :=
  (∀ a b : Byte, encode (.ldi a b) = [OpcodeMap.standard .ldi, a, b]) ∧
  (∀ (s : State) (a b : Byte) (r : Reg), a.toNat = r.val →
    ∃ t, exec (.ldi a b) s = .next t ∧ t.getReg r = b ∧ (∀ i, i ≠ r → t.getReg i = s.getReg i) ∧
      t = { s with regs := t.regs, pc := s.pc + 3 }) ∧
  (∀ (s : State) (a b : Byte), 8 ≤ a.toNat → exec (.ldi a b) s = .next (s.raise (.invalidRegister a))) ∧
  (∀ s : State, s.atOpcode .ldi → s.pc = 254 ∨ s.pc = 255 → step s = .next (s.raise (.outOfBounds 256)))

/-- R112, PRN: the register's value is appended to the output, `pc` moves on by 2, nothing else changes; its faults. -/
def Obligations.PrnRule : Prop :=
  (∀ a : Byte, encode (.prn a) = [OpcodeMap.standard .prn, a]) ∧
  (∀ (s : State) (a : Byte) (r : Reg), a.toNat = r.val →
    exec (.prn a) s = .next { s with out := s.out ++ [s.getReg r], pc := s.pc + 2 }) ∧
  (∀ (s : State) (a : Byte), 8 ≤ a.toNat → exec (.prn a) s = .next (s.raise (.invalidRegister a))) ∧
  (∀ s : State, s.atOpcode .prn → s.pc = 255 → step s = .next (s.raise (.outOfBounds 256)))

/-- R120, MUL: the product modulo 256, both factors read before the write; `pc` moves on by 3; nothing else, so no flag,
changes; its faults. -/
def Obligations.MulRule : Prop :=
  (∀ a b : Byte, encode (.mul a b) = [OpcodeMap.standard .mul, a, b]) ∧
  (∀ (s : State) (a b : Byte) (r q : Reg), a.toNat = r.val → b.toNat = q.val →
    ∃ t, exec (.mul a b) s = .next t ∧
      (t.getReg r).toNat = ((s.getReg r).toNat * (s.getReg q).toNat) % 256 ∧
      (∀ i, i ≠ r → t.getReg i = s.getReg i) ∧ t = { s with regs := t.regs, pc := s.pc + 3 }) ∧
  (∀ (s : State) (a b : Byte), 8 ≤ a.toNat → exec (.mul a b) s = .next (s.raise (.invalidRegister a))) ∧
  (∀ (s : State) (a b : Byte), a.toNat < 8 → 8 ≤ b.toNat → exec (.mul a b) s = .next (s.raise (.invalidRegister b))) ∧
  (∀ s : State, s.atOpcode .mul → s.pc = 254 ∨ s.pc = 255 → step s = .next (s.raise (.outOfBounds 256)))

/-- R121, ADD: the sum modulo 256, both addends read before the write; `pc` moves on by 3; nothing else, so no flag,
changes; its faults. -/
def Obligations.AddRule : Prop :=
  (∀ a b : Byte, encode (.add a b) = [OpcodeMap.standard .add, a, b]) ∧
  (∀ (s : State) (a b : Byte) (r q : Reg), a.toNat = r.val → b.toNat = q.val →
    ∃ t, exec (.add a b) s = .next t ∧
      (t.getReg r).toNat = ((s.getReg r).toNat + (s.getReg q).toNat) % 256 ∧
      (∀ i, i ≠ r → t.getReg i = s.getReg i) ∧ t = { s with regs := t.regs, pc := s.pc + 3 }) ∧
  (∀ (s : State) (a b : Byte), 8 ≤ a.toNat → exec (.add a b) s = .next (s.raise (.invalidRegister a))) ∧
  (∀ (s : State) (a b : Byte), a.toNat < 8 → 8 ≤ b.toNat → exec (.add a b) s = .next (s.raise (.invalidRegister b))) ∧
  (∀ s : State, s.atOpcode .add → s.pc = 254 ∨ s.pc = 255 → step s = .next (s.raise (.outOfBounds 256)))

/-- CMP: E is 1 exactly if the registers are equal, bits 7..1 of the flags keep their values, `pc` moves on by 3, nothing
else changes; its faults. That unequal operands clear E is decision D4 (log entry 8). -/
def Obligations.CmpRule : Prop :=
  (∀ a b : Byte, encode (.cmp a b) = [OpcodeMap.standard .cmp, a, b]) ∧
  (∀ (s : State) (a b : Byte) (r q : Reg), a.toNat = r.val → b.toNat = q.val →
    ∃ t, exec (.cmp a b) s = .next t ∧
      (t.fl[0] = true ↔ s.getReg r = s.getReg q) ∧
      (∀ k, 0 < k → t.fl.getLsbD k = s.fl.getLsbD k) ∧ t = { s with fl := t.fl, pc := s.pc + 3 }) ∧
  (∀ (s : State) (a b : Byte), 8 ≤ a.toNat → exec (.cmp a b) s = .next (s.raise (.invalidRegister a))) ∧
  (∀ (s : State) (a b : Byte), a.toNat < 8 → 8 ≤ b.toNat → exec (.cmp a b) s = .next (s.raise (.invalidRegister b))) ∧
  (∀ s : State, s.atOpcode .cmp → s.pc = 254 ∨ s.pc = 255 → step s = .next (s.raise (.outOfBounds 256)))

/-- CMP under every configuration: equal operands set E; unequal operands clear it where CMP_STICKY_E is false and leave
it alone where it is true; nothing else of the state but `pc` depends on the parameter (decision D4, log entry 8). -/
def Obligations.CmpUnderEitherParameter : Prop :=
  ∀ (c : Config) (s : State) (a b : Byte) (r q : Reg), a.toNat = r.val → b.toNat = q.val →
    ∃ t, execWith c (.cmp a b) s = .next t ∧
      (s.getReg r = s.getReg q → t.e = true) ∧
      (s.getReg r ≠ s.getReg q → t.e = (c.cmpStickyE && s.e)) ∧
      (∀ k, 0 < k → t.fl.getLsbD k = s.fl.getLsbD k) ∧ t = { s with fl := t.fl, pc := s.pc + 3 }

/-- PUSH: SP goes down by 1 modulo 256, and the byte at the new SP is the register's value, read after the decrement;
`pc` moves on by 2; no other register, no other cell and nothing else changes; its faults. What PUSH R7 stores is
decision D10 (log entry 10), that SP wraps without a fault is decision D11. -/
def Obligations.PushRule : Prop :=
  (∀ a : Byte, encode (.push a) = [OpcodeMap.standard .push, a]) ∧
  (∀ (s : State) (a : Byte) (r : Reg), Memory.wf s.mem = true → a.toNat = r.val →
    ∃ t, exec (.push a) s = .next t ∧
      t.sp.toNat = (s.sp.toNat + 255) % 256 ∧ (∀ i, i ≠ spIndex → t.getReg i = s.getReg i) ∧
      t.cell s.decSp.sp.toNat = s.decSp.getReg r ∧
      (r = spIndex → t.cell s.decSp.sp.toNat = t.sp) ∧
      (r ≠ spIndex → t.cell s.decSp.sp.toNat = s.getReg r) ∧
      (∀ x, x ≠ s.decSp.sp.toNat → t.cell x = s.cell x) ∧
      t = { s with regs := t.regs, mem := t.mem, pc := s.pc + 2 }) ∧
  (∀ (s : State) (a : Byte), 8 ≤ a.toNat → exec (.push a) s = .next (s.raise (.invalidRegister a))) ∧
  (∀ s : State, s.atOpcode .push → s.pc = 255 → step s = .next (s.raise (.outOfBounds 256)))

/-- POP: the register holds the byte at SP, then SP goes up by 1 modulo 256, read after the load; `pc` moves on by 2; no
other register, no cell and nothing else changes; its faults. What POP R7 leaves is decision D10 (log entry 10), that SP
wraps without a fault is decision D11. -/
def Obligations.PopRule : Prop :=
  (∀ a : Byte, encode (.pop a) = [OpcodeMap.standard .pop, a]) ∧
  (∀ (s : State) (a : Byte) (r : Reg), a.toNat = r.val →
    ∃ t, exec (.pop a) s = .next t ∧
      (r ≠ spIndex → t.getReg r = s.cell s.sp.toNat ∧ t.sp.toNat = (s.sp.toNat + 1) % 256) ∧
      (r = spIndex → t.sp.toNat = ((s.cell s.sp.toNat).toNat + 1) % 256) ∧
      (∀ i, i ≠ r → i ≠ spIndex → t.getReg i = s.getReg i) ∧
      t = { s with regs := t.regs, pc := s.pc + 2 }) ∧
  (∀ (s : State) (a : Byte), 8 ≤ a.toNat → exec (.pop a) s = .next (s.raise (.invalidRegister a))) ∧
  (∀ s : State, s.atOpcode .pop → s.pc = 255 → step s = .next (s.raise (.outOfBounds 256)))

/-- CALL: SP goes down by 1 modulo 256, the byte at the new SP is the return address `pc + 2`, and `pc` is the register's
value, read after the decrement; no other register, no other cell and nothing else changes; its faults, with the
return-address check after register validation. The check is decision D12 (log entry 12), the target of CALL R7 is
decision D10 (log entry 10). -/
def Obligations.CallRule : Prop :=
  (∀ a : Byte, encode (.call a) = [OpcodeMap.standard .call, a]) ∧
  (∀ (s : State) (a : Byte) (r : Reg), Memory.wf s.mem = true → a.toNat = r.val → s.pc.toNat ≤ 253 →
    ∃ t, exec (.call a) s = .next t ∧
      t.sp.toNat = (s.sp.toNat + 255) % 256 ∧ (∀ i, i ≠ spIndex → t.getReg i = s.getReg i) ∧
      (t.cell s.decSp.sp.toNat).toNat = s.pc.toNat + 2 ∧
      (∀ x, x ≠ s.decSp.sp.toNat → t.cell x = s.cell x) ∧
      (r ≠ spIndex → t.pc.toNat = (s.getReg r).toNat) ∧ (r = spIndex → t.pc.toNat = t.sp.toNat) ∧
      t = { s with regs := t.regs, mem := t.mem, pc := t.pc }) ∧
  (∀ (s : State) (a : Byte), a.toNat < 8 → s.pc = 254 → exec (.call a) s = .next (s.raise (.outOfBounds 256))) ∧
  (∀ (s : State) (a : Byte), 8 ≤ a.toNat → exec (.call a) s = .next (s.raise (.invalidRegister a))) ∧
  (∀ s : State, s.atOpcode .call → s.pc = 255 → step s = .next (s.raise (.outOfBounds 256)))

/-- R142, RET: `pc` is the byte at SP and SP goes up by 1 modulo 256; no other register, no cell and nothing else
changes; it raises no fault, at any address. -/
def Obligations.RetRule : Prop :=
  encode .ret = [OpcodeMap.standard .ret] ∧
  (∀ s : State,
    ∃ t, exec .ret s = .next t ∧
      t.pc.toNat = (s.cell s.sp.toNat).toNat ∧ t.sp.toNat = (s.sp.toNat + 1) % 256 ∧
      (∀ i, i ≠ spIndex → t.getReg i = s.getReg i) ∧ t = { s with regs := t.regs, pc := t.pc }) ∧
  (∀ s : State, s.atOpcode .ret → step s = exec .ret s)

/-- R143, JMP: `pc` is the register's value and nothing else changes, whatever the flags; its faults. -/
def Obligations.JmpRule : Prop :=
  (∀ a : Byte, encode (.jmp a) = [OpcodeMap.standard .jmp, a]) ∧
  (∀ (s : State) (a : Byte) (r : Reg), a.toNat = r.val →
    ∃ t, exec (.jmp a) s = .next t ∧ t.pc.toNat = (s.getReg r).toNat ∧ t = { s with pc := t.pc }) ∧
  (∀ (s : State) (a : Byte), 8 ≤ a.toNat → exec (.jmp a) s = .next (s.raise (.invalidRegister a))) ∧
  (∀ s : State, s.atOpcode .jmp → s.pc = 255 → step s = .next (s.raise (.outOfBounds 256)))

/-- R144, JEQ: taken if E is 1, else on to `pc + 2`; nothing else changes; its faults, taken or not. -/
def Obligations.JeqRule : Prop :=
  (∀ a : Byte, encode (.jeq a) = [OpcodeMap.standard .jeq, a]) ∧
  (∀ (s : State) (a : Byte) (r : Reg), a.toNat = r.val →
    ∃ t, exec (.jeq a) s = .next t ∧
      (s.fl[0] = true → t.pc.toNat = (s.getReg r).toNat) ∧
      (s.fl[0] = false → t.pc = s.pc + 2) ∧ t = { s with pc := t.pc }) ∧
  (∀ (s : State) (a : Byte), 8 ≤ a.toNat → exec (.jeq a) s = .next (s.raise (.invalidRegister a))) ∧
  (∀ s : State, s.atOpcode .jeq → s.pc = 255 → step s = .next (s.raise (.outOfBounds 256)))

/-- R145, JNE: taken if E is 0, else on to `pc + 2`; nothing else changes; its faults, taken or not. -/
def Obligations.JneRule : Prop :=
  (∀ a : Byte, encode (.jne a) = [OpcodeMap.standard .jne, a]) ∧
  (∀ (s : State) (a : Byte) (r : Reg), a.toNat = r.val →
    ∃ t, exec (.jne a) s = .next t ∧
      (s.fl[0] = false → t.pc.toNat = (s.getReg r).toNat) ∧
      (s.fl[0] = true → t.pc = s.pc + 2) ∧ t = { s with pc := t.pc }) ∧
  (∀ (s : State) (a : Byte), 8 ≤ a.toNat → exec (.jne a) s = .next (s.raise (.invalidRegister a))) ∧
  (∀ s : State, s.atOpcode .jne → s.pc = 255 → step s = .next (s.raise (.outOfBounds 256)))

/-! Faults. -/

/-- R162: InvalidRegister is raised with the operand byte when a byte in a register position is 8 or more, and an
instruction of a RUNNING engine whose register bytes are below 8, HLT and RET among them, does not raise it. -/
def Obligations.InvalidRegisterRule : Prop :=
  (∀ (s : State) (i : Instr) (a : Byte), i.operandBytes.head? = some a → 8 ≤ a.toNat →
    exec i s = .next (s.raise (.invalidRegister a))) ∧
  (∀ (s : State) (a b : Byte), a.toNat < 8 → 8 ≤ b.toNat →
    ∀ i ∈ [Instr.mul a b, Instr.add a b, Instr.cmp a b], exec i s = .next (s.raise (.invalidRegister b))) ∧
  (∀ (s : State) (i : Instr) (v : Byte), s.rs = .running → i.wf = true → exec i s ≠ .next (s.raise (.invalidRegister v)))

/-- R164: a byte at `pc` that is no opcode raises UnknownOpcode; the record holds the byte and its address, and neither
memory nor anything else changes. -/
def Obligations.UnknownOpcodeRule : Prop :=
  ∀ s : State, s.rs = .running → s.pc.toNat < 256 →
    (∀ h : Handler, Config.standard.opcodes h ≠ s.cell s.pc.toNat) →
    ∃ t, step s = .next t ∧
      t.faultRecord = some { kind := .unknownOpcode, pc := s.pc, info := zext9 (s.cell s.pc.toNat) } ∧
      t = { s with rs := .faulted, faultRecord := t.faultRecord }

/-- Fault entry: the record holds the kind, the `pc` at the start of the step and the information; the engine is FAULTED;
registers, `pc`, flags, memory and output are as before (decision D7). -/
def Obligations.FaultEntry : Prop :=
  ∀ (s : State) (r : Raise),
    (s.raise r).faultRecord = some { kind := r.kind, pc := s.pc, info := r.info } ∧ (s.raise r).rs = .faulted ∧
    (∀ i, (s.raise r).getReg i = s.getReg i) ∧ (s.raise r).pc = s.pc ∧ (s.raise r).fl = s.fl ∧
    (∀ x, (s.raise r).cell x = s.cell x) ∧ (s.raise r).out = s.out

/-- R167: whenever a step leaves the engine FAULTED, registers, `pc`, flags, memory and everything printed before are as
they were before the step, and the record names that `pc`. -/
def Obligations.FaultsArePrecise : Prop :=
  ∀ s t : State, step s = .next t → t.rs = .faulted →
    t.regs = s.regs ∧ t.pc = s.pc ∧ t.fl = s.fl ∧ t.mem = s.mem ∧ t.out = s.out ∧
    ∃ record, t.faultRecord = some record ∧ record.pc = s.pc

/-- A step of a RUNNING engine raises the first fault of the list of R165, under every configuration; where none applies
it performs an instruction and is not FAULTED. The order of the list is decision D9 (log entry 11). -/
def Obligations.FirstFailingCheckIsReported : Prop :=
  ∀ (c : Config) (s : State), s.rs = .running →
    (∀ r, s.firstFault c = some r → stepWith c s = .next (s.raise r)) ∧
    (s.firstFault c = none → ∃ t, stepWith c s = .next t ∧ t.rs ≠ .faulted)

/-- No step raises UnsupportedALUOperation, under any configuration, though the ALU answers it for an operation it does
not have (the wider argument of the ALU is the model's, log entry 13). -/
def Obligations.UnsupportedAluOperationNeverRaised : Prop :=
  (∀ (c : Config) (s t : State) (code : Byte), stepWith c s = .next t → t ≠ s.raise (.unsupportedALUOperation code)) ∧
  (∀ code p q : Byte, alu (.other code) p q = .error (.unsupportedALUOperation code))

/-! Whole-machine frames. -/

/-- R23: an instruction leaves every register it does not write as it was; the value of a register it does not read
makes no difference: where it does not write it either, only that register differs afterwards, and where it writes it,
nothing differs. -/
def Obligations.RegisterReadAndWriteTable : Prop :=
  (∀ (i : Instr) (s t : State) (r : Reg), exec i s = .next t → writesReg i r = false → t.getReg r = s.getReg r) ∧
  (∀ (i : Instr) (s t : State) (r : Reg) (v : Byte), exec i s = .next t → readsReg s.e i r = false →
    writesReg i r = false → exec i (s.setReg r v) = .next (t.setReg r v)) ∧
  (∀ (i : Instr) (s : State) (r : Reg) (v : Byte), i.wf = true → readsReg s.e i r = false →
    writesReg i r = true → exec i (s.setReg r v) = exec i s)

/-- Memory changes only by PUSH and CALL, and only in the cell at the decremented stack pointer. -/
def Obligations.OnlyPushAndCallStore : Prop :=
  ∀ (i : Instr) (s t : State), exec i s = .next t →
    (i.handler ≠ .push → i.handler ≠ .call → ∀ x, t.cell x = s.cell x) ∧
    (∀ x, x ≠ s.decSp.sp.toNat → t.cell x = s.cell x)

/-- Only CMP writes the flags; JEQ branches when E is 1 and JNE when E is 0, and they alone read E: every other
instruction does the same to all the rest of the state whatever the flags hold, and what CMP leaves in E does not depend
on what was there. The last is so because CMP_STICKY_E is false, the default of decision D4 (log entry 8); with it true,
CMP of unequal registers leaves E as it was (`CmpUnderEitherParameter`). -/
def Obligations.FlagsAreCmpAndBranchesOnly : Prop :=
  (∀ (i : Instr) (s t : State), exec i s = .next t → i.handler ≠ .cmp → t.fl = s.fl) ∧
  (∀ (i : Instr) (s t : State) (v : Byte), exec i s = .next t → i.handler ≠ .jeq → i.handler ≠ .jne →
    ∃ u, exec i (s.setFl v) = .next u ∧ u.setFl t.fl = t) ∧
  (∀ (a b : Byte) (s t u : State) (v : Byte), Instr.wf (.cmp a b) = true → exec (.cmp a b) s = .next t →
    exec (.cmp a b) (s.setFl v) = .next u → u.e = t.e) ∧
  (∀ (s : State) (a : Byte) (r : Reg), a.toNat = r.val →
    exec (.jeq a) s = .next { s with pc := if s.fl[0] then zext9 (s.getReg r) else s.pc + 2 } ∧
    exec (.jne a) s = .next { s with pc := if s.fl[0] then s.pc + 2 else zext9 (s.getReg r) })

/-- R37: the output is empty after reset; PRN appends to it, and nothing else changes it. -/
def Obligations.OnlyPrnEmits : Prop :=
  State.reset.out = [] ∧
  (∀ (i : Instr) (s t : State), exec i s = .next t → i.handler ≠ .prn → t.out = s.out) ∧
  (∀ (a : Byte) (s t : State) (r : Reg), exec (.prn a) s = .next t → a.toNat = r.val → t.out = s.out ++ [s.getReg r]) ∧
  (∀ s t : State, step s = .next t → t.out = s.out ∨ ∃ v, t.out = s.out ++ [v])

/-- Nothing reads the output: a step does the same with other values printed before. -/
def Obligations.OutputIsNeverRead : Prop :=
  ∀ (s t : State) (before : List Byte), step s = .next t →
    step { s with out := before ++ s.out } = .next { t with out := before ++ t.out }

/-- Run state and fault record change only by HLT and by fault entry. -/
def Obligations.OnlyHltAndFaultsEndARun : Prop :=
  ∀ (i : Instr) (s t : State), exec i s = .next t →
    (i = .hlt ∧ t.rs = .halted ∧ t.faultRecord = s.faultRecord) ∨
    (i ≠ .hlt ∧ t.rs = s.rs ∧ t.faultRecord = s.faultRecord) ∨ (i ≠ .hlt ∧ ∃ r, t = s.raise r)

/-- The transitions of the run state by a step: from RUNNING only; to HALTED exactly when the byte at `pc` is HLT's, to
FAULTED exactly by fault entry, else to RUNNING. That HALTED and FAULTED have no step is decision D19. -/
def Obligations.RunStateTransitions : Prop :=
  ∀ s t : State, step s = .next t →
    s.rs = .running ∧ (t.rs = .halted ↔ s.atOpcode .hlt) ∧ (t.rs = .faulted ↔ ∃ r, t = s.raise r)

/-! Laws across instructions. -/

/-- R147: for the same E exactly one of JEQ and JNE is taken; an instruction other than CMP leaves E alone. -/
def Obligations.BranchesAreComplementary : Prop :=
  (∀ (s : State) (a : Byte) (r : Reg), a.toNat = r.val →
    ∃ t u, exec (.jeq a) s = .next t ∧ exec (.jne a) s = .next u ∧
      ((t.pc = zext9 (s.getReg r) ∧ u.pc = s.pc + 2 ∧ s.e = true) ∨
        (t.pc = s.pc + 2 ∧ u.pc = zext9 (s.getReg r) ∧ s.e = false))) ∧
  (∀ (i : Instr) (s t : State), exec i s = .next t → (∀ a b, i ≠ .cmp a b) → t.e = s.e)

/-- CALL and RET pair: a RET that finds SP one below its value at the CALL, and the return address still there, goes to
the instruction after the CALL and restores SP. -/
def Obligations.CallThenRetReturns : Prop :=
  ∀ (s t u : State) (a : Byte), Memory.wf s.mem = true → s.pc.toNat ≤ 253 → a.toNat < 8 →
    exec (.call a) s = .next t → u.sp = s.sp - 1 → u.cell u.sp.toNat = t.cell t.sp.toNat →
    ∃ v, exec .ret u = .next v ∧ v.pc = s.pc + 2 ∧ v.sp = s.sp

/-- PUSH and then POP, of registers other than R7, moves the value and restores SP, whatever came between that left SP
and the pushed cell alone. -/
def Obligations.PushThenPopMovesTheValue : Prop :=
  ∀ (s t u : State) (a b : Byte) (r q : Reg), Memory.wf s.mem = true → a.toNat = r.val → b.toNat = q.val →
    r ≠ spIndex → q ≠ spIndex → exec (.push a) s = .next t → u.sp = t.sp → u.cell u.sp.toNat = t.cell t.sp.toNat →
    ∃ v, exec (.pop b) u = .next v ∧ v.getReg q = s.getReg r ∧ v.sp = s.sp

/-- A byte that PUSH stores on the next instruction's opcode is what the next step fetches: HLT's opcode halts, a byte
that is no opcode raises UnknownOpcode with it. -/
def Obligations.NextFetchSeesThePushedByte : Prop :=
  ∀ (s : State) (a : Byte) (r : Reg), Memory.wf s.mem = true → s.rs = .running → a.toNat = r.val → r ≠ spIndex →
    s.holdsAtPc (encode (.push a)) → s.pc.toNat + 2 = s.decSp.sp.toNat →
    ∃ t, step s = .next t ∧
      (s.getReg r = Config.standard.opcodes .hlt → step t = .next { t with rs := .halted }) ∧
      ((∀ h, Config.standard.opcodes h ≠ s.getReg r) → step t = .next (t.raise (.unknownOpcode (s.getReg r))))

/-- The low 8 bits of a sum and of a product are the same whether the operands are read as unsigned or as signed. -/
def Obligations.SignednessDoesNotMatter : Prop :=
  ∀ p q : Byte,
    alu .add p q = .ok (BitVec.ofInt 8 (p.toInt + q.toInt)) ∧ alu .mul p q = .ok (BitVec.ofInt 8 (p.toInt * q.toInt))

/-- A jump to its own address leaves the state as it is, so it is run again for ever: the machine has no step limit. -/
def Obligations.JumpToItselfNeverEnds : Prop :=
  ∀ (s : State) (a : Byte) (r : Reg) (n : Nat), s.rs = .running → a.toNat = r.val → s.holdsAtPc (encode (.jmp a)) →
    zext9 (s.getReg r) = s.pc → Host.Core.run Sys2Proof.core n s = .next s

/-- With no program loaded the first step faults: byte 0x00 is no opcode (of the default map, decision D1). -/
def Obligations.EmptyImageFaultsAtOnce : Prop :=
  ∃ s, launch [] = .ok s ∧ s = State.reset ∧ step s = .next (s.raise (.unknownOpcode 0x00))

/-! Configurations and invariants. -/

/-- `step` is the step under the default configuration. -/
def Obligations.StepIsTheDefaultConfiguration : Prop :=
  ∀ s : State, step s = stepWith Config.standard s

/-- The reset state meets the invariant under every configuration. -/
def Obligations.ResetMeetsTheInvariant : Prop :=
  State.reset.Inv ∧ ∀ c : Config, (State.resetWith c).Inv

/-- Every step keeps the invariant, of the machine and of the machine under every configuration: memory in canonical
form, `pc` in 0..256, bits 7..1 of the flags 0, and the fault record present, legal and at `pc` exactly when the engine
is FAULTED. -/
def Obligations.StepKeepsTheInvariant : Prop :=
  (∀ s t : State, s.Inv → step s = .next t → t.Inv) ∧
  (∀ (c : Config) (s t : State), s.Inv → stepWith c s = .next t → t.Inv)

/-- Every state that a run of any image reaches, under every configuration, meets the invariant, and only in a HALTED
or FAULTED one is there no next state. -/
def Obligations.EveryReachableStateMeetsTheInvariant : Prop :=
  ∀ (c : Config) (image : List Byte) (s t : State), launchWith c image = .ok s → Reaches c s t →
    t.Inv ∧ (t.rs = .running ↔ ∃ u, stepWith c t = .next u)

/-- A run that has halted stands at the HLT that ended it, with no fault recorded; a run that has faulted has its record
at `pc` (that `pc` stays at HLT is decision D13, log entry 9). -/
def Obligations.EndOfARunShowsWhatEndedIt : Prop :=
  ∀ (c : Config) (image : List Byte) (s t : State), launchWith c image = .ok s → Reaches c s t →
    (t.rs = .halted → t.completed = true ∧ t.pc.toNat < 256 ∧ t.cell t.pc.toNat = c.opcodes .hlt) ∧
    (t.rs = .faulted → t.aborted = true ∧ ∃ record, t.faultRecord = some record ∧ record.pc = t.pc)
end

