-- ==== Sys2Proof/Laws/Memory.lean ====
section
/-! SUPPORT. Memory: a read after a write, and that every memory operation keeps the canonical form
(`spec/20_memory.md` R51, R52). -/

namespace Sys2Proof.Machine

@[simp] theorem Memory.read_nil (a : Nat) : Memory.read [] a = unlistedByte := rfl

@[simp] theorem Memory.read_cell (b : Nat) (v : Byte) (m : Memory) (a : Nat) :
    Memory.read ((b, v) :: m) a = if a = b then v else Memory.read m a := rfl

@[simp] theorem Memory.wfFrom_nil (lo : Nat) : Memory.wfFrom lo [] = true := rfl

theorem Memory.wfFrom_cell (lo a : Nat) (v : Byte) (m : Memory) :
    Memory.wfFrom lo ((a, v) :: m) = true ↔
      lo ≤ a ∧ a < memSize ∧ v ≠ unlistedByte ∧ Memory.wfFrom (a + 1) m = true := by
  simp [Memory.wfFrom, and_assoc]

/-- In canonical form from `lo` on, nothing is listed below `lo`. -/
theorem Memory.read_below {lo a : Nat} {m : Memory} (hm : Memory.wfFrom lo m = true) (h : a < lo) :
    Memory.read m a = unlistedByte := by
  induction m generalizing lo with
  | nil => rfl
  | cons c m ih =>
    obtain ⟨b, v⟩ := c
    obtain ⟨hlo, -, -, hm⟩ := (Memory.wfFrom_cell ..).1 hm
    rw [Memory.read_cell, if_neg (by omega)]
    exact ih hm (by omega)

theorem Memory.wfFrom_mono {lo lo' : Nat} {m : Memory} (hm : Memory.wfFrom lo m = true) (h : lo' ≤ lo) :
    Memory.wfFrom lo' m = true := by
  cases m with
  | nil => rfl
  | cons c m =>
    obtain ⟨b, v⟩ := c
    obtain ⟨hlo, hb⟩ := (Memory.wfFrom_cell ..).1 hm
    exact (Memory.wfFrom_cell ..).2 ⟨by omega, hb⟩

theorem Memory.read_cons (a : Nat) (v : Byte) {m : Memory} (hm : Memory.read m a = unlistedByte) (x : Nat) :
    Memory.read (Memory.cons a v m) x = if x = a then v else Memory.read m x := by
  unfold Memory.cons
  split
  · split <;> simp_all
  · rfl

theorem Memory.wfFrom_cons {lo a : Nat} {v : Byte} {m : Memory} (hm : Memory.wfFrom (a + 1) m = true) (hlo : lo ≤ a)
    (ha : a < memSize) : Memory.wfFrom lo (Memory.cons a v m) = true := by
  unfold Memory.cons
  split
  · exact Memory.wfFrom_mono hm (by omega)
  · exact (Memory.wfFrom_cell ..).2 ⟨hlo, ha, ‹_›, hm⟩

/-- A write keeps the canonical form. -/
theorem Memory.wfFrom_write {lo a : Nat} {m : Memory} (v : Byte) (hm : Memory.wfFrom lo m = true) (hlo : lo ≤ a)
    (ha : a < memSize) : Memory.wfFrom lo (Memory.write m a v) = true := by
  induction m generalizing lo with
  | nil => exact Memory.wfFrom_cons rfl hlo ha
  | cons c m ih =>
    obtain ⟨b, w⟩ := c
    obtain ⟨hb, hbm, hw, hm⟩ := (Memory.wfFrom_cell ..).1 hm
    unfold Memory.write
    split
    · exact Memory.wfFrom_cons ((Memory.wfFrom_cell ..).2 ⟨by omega, hbm, hw, hm⟩) hlo ha
    · split
      · subst a
        exact Memory.wfFrom_cons hm hlo ha
      · exact (Memory.wfFrom_cell ..).2 ⟨hb, hbm, hw, ih hm (by omega)⟩

theorem Memory.wf_write {m : Memory} (a : Nat) (v : Byte) (hm : Memory.wf m = true) (ha : a < memSize) :
    Memory.wf (Memory.write m a v) = true :=
  Memory.wfFrom_write v hm (Nat.zero_le a) ha

/-- A write leaves every other cell alone. -/
theorem Memory.read_write_of_ne {x a : Nat} (m : Memory) (v : Byte) (h : x ≠ a) :
    Memory.read (Memory.write m a v) x = Memory.read m x := by
  have hcons (n : Memory) : Memory.read (Memory.cons a v n) x = Memory.read n x := by
    unfold Memory.cons
    split <;> simp [h]
  induction m with
  | nil => exact hcons []
  | cons c m ih =>
    obtain ⟨b, w⟩ := c
    unfold Memory.write
    split
    · exact hcons _
    · split
      · subst a
        rw [hcons, Memory.read_cell, if_neg h]
      · simp [ih]

/-- A read after a write to the same cell gives the value written. -/
theorem Memory.read_write_self {lo : Nat} {m : Memory} (a : Nat) (v : Byte) (hm : Memory.wfFrom lo m = true) :
    Memory.read (Memory.write m a v) a = v := by
  induction m generalizing lo with
  | nil => exact (Memory.read_cons a v (m := []) rfl a).trans (if_pos rfl)
  | cons c m ih =>
    obtain ⟨b, w⟩ := c
    obtain ⟨-, -, -, hm⟩ := (Memory.wfFrom_cell ..).1 hm
    unfold Memory.write
    split
    · have h0 : Memory.read m a = unlistedByte := Memory.read_below hm (by omega)
      rw [Memory.read_cons _ _ (by rw [Memory.read_cell, if_neg (by omega), h0]), if_pos rfl]
    · split
      · subst a
        rw [Memory.read_cons _ _ (Memory.read_below hm (by omega)), if_pos rfl]
      · rename_i hne
        rw [Memory.read_cell, if_neg hne]
        exact ih hm

/-- Placing an instruction's bytes keeps the canonical form. -/
theorem Memory.wf_place {m : Memory} (bytes : List Byte) (a : Nat) (hm : Memory.wf m = true) :
    Memory.wf (Memory.place m a bytes) = true := by
  induction bytes generalizing m a with
  | nil => exact hm
  | cons v vs ih =>
    refine ih _ ?_
    split
    · exact Memory.wf_write _ _ hm ‹_›
    · exact hm

theorem Memory.wf_reset (c : Config) : Memory.wf (State.resetWith c).mem = true := rfl

end Sys2Proof.Machine
end

