-- ==== Sys2Proof/Laws/State.lean ====
section
/-! SUPPORT. What each update of the state does to each field, and to the reads of a register, a cell and E. -/

namespace Sys2Proof.Machine

variable (s : State)

@[simp] theorem State.setReg_regs (r : Reg) (v : Byte) : (s.setReg r v).regs = s.regs.set r v := rfl
@[simp] theorem State.setReg_pc (r : Reg) (v : Byte) : (s.setReg r v).pc = s.pc := rfl
@[simp] theorem State.setReg_fl (r : Reg) (v : Byte) : (s.setReg r v).fl = s.fl := rfl
@[simp] theorem State.setReg_rs (r : Reg) (v : Byte) : (s.setReg r v).rs = s.rs := rfl
@[simp] theorem State.setReg_faultRecord (r : Reg) (v : Byte) : (s.setReg r v).faultRecord = s.faultRecord := rfl
@[simp] theorem State.setReg_mem (r : Reg) (v : Byte) : (s.setReg r v).mem = s.mem := rfl
@[simp] theorem State.setReg_out (r : Reg) (v : Byte) : (s.setReg r v).out = s.out := rfl
@[simp] theorem State.cell_setReg (r : Reg) (v : Byte) (n : Nat) : (s.setReg r v).cell n = s.cell n := rfl
@[simp] theorem State.e_setReg (r : Reg) (v : Byte) : (s.setReg r v).e = s.e := rfl

@[simp] theorem State.emit_regs (v : Byte) : (s.emit v).regs = s.regs := rfl
@[simp] theorem State.emit_pc (v : Byte) : (s.emit v).pc = s.pc := rfl
@[simp] theorem State.emit_fl (v : Byte) : (s.emit v).fl = s.fl := rfl
@[simp] theorem State.emit_rs (v : Byte) : (s.emit v).rs = s.rs := rfl
@[simp] theorem State.emit_faultRecord (v : Byte) : (s.emit v).faultRecord = s.faultRecord := rfl
@[simp] theorem State.emit_mem (v : Byte) : (s.emit v).mem = s.mem := rfl
@[simp] theorem State.emit_out (v : Byte) : (s.emit v).out = s.out ++ [v] := rfl
@[simp] theorem State.getReg_emit (v : Byte) (i : Reg) : (s.emit v).getReg i = s.getReg i := rfl
@[simp] theorem State.sp_emit (v : Byte) : (s.emit v).sp = s.sp := rfl
@[simp] theorem State.cell_emit (v : Byte) (n : Nat) : (s.emit v).cell n = s.cell n := rfl
@[simp] theorem State.e_emit (v : Byte) : (s.emit v).e = s.e := rfl

@[simp] theorem State.advance_regs (n : Addr) : (s.advance n).regs = s.regs := rfl
@[simp] theorem State.advance_pc (n : Addr) : (s.advance n).pc = s.pc + n := rfl
@[simp] theorem State.advance_fl (n : Addr) : (s.advance n).fl = s.fl := rfl
@[simp] theorem State.advance_rs (n : Addr) : (s.advance n).rs = s.rs := rfl
@[simp] theorem State.advance_faultRecord (n : Addr) : (s.advance n).faultRecord = s.faultRecord := rfl
@[simp] theorem State.advance_mem (n : Addr) : (s.advance n).mem = s.mem := rfl
@[simp] theorem State.advance_out (n : Addr) : (s.advance n).out = s.out := rfl
@[simp] theorem State.getReg_advance (n : Addr) (i : Reg) : (s.advance n).getReg i = s.getReg i := rfl
@[simp] theorem State.sp_advance (n : Addr) : (s.advance n).sp = s.sp := rfl
@[simp] theorem State.cell_advance (n : Addr) (x : Nat) : (s.advance n).cell x = s.cell x := rfl
@[simp] theorem State.e_advance (n : Addr) : (s.advance n).e = s.e := rfl

@[simp] theorem State.jumpTo_regs (v : Byte) : (s.jumpTo v).regs = s.regs := rfl
@[simp] theorem State.jumpTo_pc (v : Byte) : (s.jumpTo v).pc = zext9 v := rfl
@[simp] theorem State.jumpTo_fl (v : Byte) : (s.jumpTo v).fl = s.fl := rfl
@[simp] theorem State.jumpTo_rs (v : Byte) : (s.jumpTo v).rs = s.rs := rfl
@[simp] theorem State.jumpTo_faultRecord (v : Byte) : (s.jumpTo v).faultRecord = s.faultRecord := rfl
@[simp] theorem State.jumpTo_mem (v : Byte) : (s.jumpTo v).mem = s.mem := rfl
@[simp] theorem State.jumpTo_out (v : Byte) : (s.jumpTo v).out = s.out := rfl
@[simp] theorem State.getReg_jumpTo (v : Byte) (i : Reg) : (s.jumpTo v).getReg i = s.getReg i := rfl
@[simp] theorem State.sp_jumpTo (v : Byte) : (s.jumpTo v).sp = s.sp := rfl
@[simp] theorem State.cell_jumpTo (v : Byte) (n : Nat) : (s.jumpTo v).cell n = s.cell n := rfl
@[simp] theorem State.e_jumpTo (v : Byte) : (s.jumpTo v).e = s.e := rfl

@[simp] theorem State.setFl_regs (v : Byte) : (s.setFl v).regs = s.regs := rfl
@[simp] theorem State.setFl_pc (v : Byte) : (s.setFl v).pc = s.pc := rfl
@[simp] theorem State.setFl_fl (v : Byte) : (s.setFl v).fl = v := rfl
@[simp] theorem State.setFl_rs (v : Byte) : (s.setFl v).rs = s.rs := rfl
@[simp] theorem State.setFl_faultRecord (v : Byte) : (s.setFl v).faultRecord = s.faultRecord := rfl
@[simp] theorem State.setFl_mem (v : Byte) : (s.setFl v).mem = s.mem := rfl
@[simp] theorem State.setFl_out (v : Byte) : (s.setFl v).out = s.out := rfl
@[simp] theorem State.getReg_setFl (v : Byte) (i : Reg) : (s.setFl v).getReg i = s.getReg i := rfl
@[simp] theorem State.sp_setFl (v : Byte) : (s.setFl v).sp = s.sp := rfl
@[simp] theorem State.cell_setFl (v : Byte) (n : Nat) : (s.setFl v).cell n = s.cell n := rfl

@[simp] theorem State.halt_regs : (s.halt).regs = s.regs := rfl
@[simp] theorem State.halt_pc : (s.halt).pc = s.pc := rfl
@[simp] theorem State.halt_fl : (s.halt).fl = s.fl := rfl
@[simp] theorem State.halt_rs : (s.halt).rs = .halted := rfl
@[simp] theorem State.halt_faultRecord : (s.halt).faultRecord = s.faultRecord := rfl
@[simp] theorem State.halt_mem : (s.halt).mem = s.mem := rfl
@[simp] theorem State.halt_out : (s.halt).out = s.out := rfl
@[simp] theorem State.getReg_halt (i : Reg) : (s.halt).getReg i = s.getReg i := rfl
@[simp] theorem State.sp_halt : (s.halt).sp = s.sp := rfl
@[simp] theorem State.cell_halt (n : Nat) : (s.halt).cell n = s.cell n := rfl
@[simp] theorem State.e_halt : (s.halt).e = s.e := rfl

@[simp] theorem State.decSp_regs : (s.decSp).regs = s.regs.set spIndex (s.sp - 1) := rfl
@[simp] theorem State.decSp_pc : (s.decSp).pc = s.pc := rfl
@[simp] theorem State.decSp_fl : (s.decSp).fl = s.fl := rfl
@[simp] theorem State.decSp_rs : (s.decSp).rs = s.rs := rfl
@[simp] theorem State.decSp_faultRecord : (s.decSp).faultRecord = s.faultRecord := rfl
@[simp] theorem State.decSp_mem : (s.decSp).mem = s.mem := rfl
@[simp] theorem State.decSp_out : (s.decSp).out = s.out := rfl
@[simp] theorem State.cell_decSp (n : Nat) : (s.decSp).cell n = s.cell n := rfl
@[simp] theorem State.e_decSp : (s.decSp).e = s.e := rfl

@[simp] theorem State.incSp_regs : (s.incSp).regs = s.regs.set spIndex (s.sp + 1) := rfl
@[simp] theorem State.incSp_pc : (s.incSp).pc = s.pc := rfl
@[simp] theorem State.incSp_fl : (s.incSp).fl = s.fl := rfl
@[simp] theorem State.incSp_rs : (s.incSp).rs = s.rs := rfl
@[simp] theorem State.incSp_faultRecord : (s.incSp).faultRecord = s.faultRecord := rfl
@[simp] theorem State.incSp_mem : (s.incSp).mem = s.mem := rfl
@[simp] theorem State.incSp_out : (s.incSp).out = s.out := rfl
@[simp] theorem State.cell_incSp (n : Nat) : (s.incSp).cell n = s.cell n := rfl
@[simp] theorem State.e_incSp : (s.incSp).e = s.e := rfl

@[simp] theorem State.raise_regs (r : Raise) : (s.raise r).regs = s.regs := rfl
@[simp] theorem State.raise_pc (r : Raise) : (s.raise r).pc = s.pc := rfl
@[simp] theorem State.raise_fl (r : Raise) : (s.raise r).fl = s.fl := rfl
@[simp] theorem State.raise_rs (r : Raise) : (s.raise r).rs = .faulted := rfl
@[simp] theorem State.raise_faultRecord (r : Raise) : (s.raise r).faultRecord = some { kind := r.kind, pc := s.pc, info := r.info } := rfl
@[simp] theorem State.raise_mem (r : Raise) : (s.raise r).mem = s.mem := rfl
@[simp] theorem State.raise_out (r : Raise) : (s.raise r).out = s.out := rfl
@[simp] theorem State.getReg_raise (r : Raise) (i : Reg) : (s.raise r).getReg i = s.getReg i := rfl
@[simp] theorem State.sp_raise (r : Raise) : (s.raise r).sp = s.sp := rfl
@[simp] theorem State.cell_raise (r : Raise) (n : Nat) : (s.raise r).cell n = s.cell n := rfl
@[simp] theorem State.e_raise (r : Raise) : (s.raise r).e = s.e := rfl

/-- A register reads as it was last set; every other register reads as before. -/
theorem State.getReg_setReg (r i : Reg) (v : Byte) : (s.setReg r v).getReg i = if i = r then v else s.getReg i := by
  rcases r with ⟨r, hr⟩
  rcases i with ⟨i, hi⟩
  simp [State.getReg, State.setReg, Vector.getElem_set, eq_comm]

@[simp] theorem State.getReg_setReg_self (r : Reg) (v : Byte) : (s.setReg r v).getReg r = v := by
  simp [State.getReg_setReg]

theorem State.getReg_setReg_of_ne {r i : Reg} (h : i ≠ r) (v : Byte) : (s.setReg r v).getReg i = s.getReg i := by
  simp [State.getReg_setReg, h]

@[simp] theorem State.sp_decSp : s.decSp.sp = s.sp - 1 := by simp [State.sp, State.decSp]

@[simp] theorem State.sp_incSp : s.incSp.sp = s.sp + 1 := by simp [State.sp, State.incSp]

theorem State.getReg_decSp (i : Reg) : s.decSp.getReg i = if i = spIndex then s.sp - 1 else s.getReg i := by
  simp [State.decSp, State.getReg_setReg]

theorem State.getReg_incSp (i : Reg) : s.incSp.getReg i = if i = spIndex then s.sp + 1 else s.getReg i := by
  simp [State.incSp, State.getReg_setReg]

/-- Two states with equal registers, read one by one, have the same register file. -/
theorem State.regs_ext {s t : State} (h : ∀ i, s.getReg i = t.getReg i) : s.regs = t.regs :=
  Vector.ext fun i hi => h ⟨i, hi⟩

end Sys2Proof.Machine
end

