-- ==== Sys2Proof/Laws/Ops.lean ====
section
/-! SUPPORT. What each shared operation can do, once: memory access, register validation, the ALU, fault entry and the
end of an instruction, the fetch and the step. -/

namespace Sys2Proof.Machine

variable {s t : State}

@[simp] theorem except_bind_ok {ε α β : Type} (a : α) (f : α → Except ε β) : (Except.ok a >>= f) = f a := rfl

@[simp] theorem except_bind_error {ε α β : Type} (e : ε) (f : α → Except ε β) : (Except.error e >>= f) = .error e := rfl

@[simp] theorem except_pure_eq_ok {ε α : Type} (a : α) : (pure a : Except ε α) = .ok a := rfl

/-- If a computation that may raise a fault answers a value, so does its first part. -/
theorem except_bind_eq_ok {ε α β : Type} {x : Except ε α} {f : α → Except ε β} {b : β} (h : (x >>= f) = .ok b) :
    ∃ a, x = .ok a ∧ f a = .ok b := by
  cases x with
  | ok a => exact ⟨a, rfl, h⟩
  | error e => cases h

/-! Addresses. -/

@[simp] theorem zext9_toNat (v : Byte) : (zext9 v).toNat = v.toNat := by
  simp only [zext9, BitVec.toNat_setWidth]
  exact Nat.mod_eq_of_lt (by have := v.isLt; omega)

theorem zext9_lt (v : Byte) : (zext9 v).toNat < memSize := by
  rw [zext9_toNat]
  exact v.isLt

/-! Memory access (R51-R53). -/

theorem memRead_ok {addr : Addr} (h : addr.toNat < memSize) : s.memRead addr = .ok (s.cell addr.toNat) := if_pos h

theorem memRead_error {addr : Addr} (h : memSize ≤ addr.toNat) : s.memRead addr = .error (.outOfBounds addr) :=
  if_neg (by omega)

/-- If a read answers a byte, the address is in memory and the byte is the cell's. -/
theorem memRead_eq_ok {addr : Addr} {v : Byte} (h : s.memRead addr = .ok v) :
    addr.toNat < memSize ∧ v = s.cell addr.toNat := by
  unfold State.memRead at h
  split at h
  · exact ⟨‹_›, by cases h; rfl⟩
  · cases h

theorem memRead_eq_error {addr : Addr} {r : Raise} (h : s.memRead addr = .error r) :
    memSize ≤ addr.toNat ∧ r = .outOfBounds addr := by
  unfold State.memRead at h
  split at h
  · cases h
  · exact ⟨by omega, by cases h; rfl⟩

theorem memWrite_ok {addr : Addr} (v : Byte) (h : addr.toNat < memSize) :
    s.memWrite addr v = .ok { s with mem := Memory.write s.mem addr.toNat v } := if_pos h

theorem memWrite_error {addr : Addr} (v : Byte) (h : memSize ≤ addr.toNat) :
    s.memWrite addr v = .error (.outOfBounds addr) := if_neg (by omega)

/-- The top of the stack is always in memory (R53). -/
@[simp] theorem readTop_eq (s : State) : s.readTop = .ok (s.cell s.sp.toNat) := by
  rw [State.readTop, memRead_ok (zext9_lt _), zext9_toNat]

@[simp] theorem writeTop_eq (s : State) (v : Byte) :
    s.writeTop v = .ok { s with mem := Memory.write s.mem s.sp.toNat v } := by
  rw [State.writeTop, memWrite_ok _ (zext9_lt _), zext9_toNat]

/-! Register validation (R99). -/

theorem checkReg_ok {v : Byte} (h : v.toNat < 8) : checkReg v = .ok ⟨v.toNat, h⟩ := dif_pos h

theorem checkReg_error {v : Byte} (h : 8 ≤ v.toNat) : checkReg v = .error (.invalidRegister v) := dif_neg (by omega)

theorem checkReg_of_eq {a : Byte} {r : Reg} (h : a.toNat = r.val) : checkReg a = .ok r := by
  rw [checkReg_ok (by omega)]
  exact congrArg Except.ok (Fin.ext h)

theorem checkRegs_of_eq {a b : Byte} {r q : Reg} (ha : a.toNat = r.val) (hb : b.toNat = q.val) :
    checkRegs a b = .ok (r, q) := by
  simp [checkRegs, checkReg_of_eq ha, checkReg_of_eq hb]

/-- Either the byte names a register, or InvalidRegister is raised with the byte. -/
theorem checkReg_cases (v : Byte) :
    (∃ r : Reg, checkReg v = .ok r ∧ r.val = v.toNat) ∨ (checkReg v = .error (.invalidRegister v) ∧ 8 ≤ v.toNat) := by
  by_cases h : v.toNat < 8
  · exact .inl ⟨_, checkReg_ok h, rfl⟩
  · exact .inr ⟨checkReg_error (by omega), by omega⟩

theorem checkRegs_ok {a b : Byte} (ha : a.toNat < 8) (hb : b.toNat < 8) :
    checkRegs a b = .ok (⟨a.toNat, ha⟩, ⟨b.toNat, hb⟩) := by
  simp [checkRegs, checkReg_ok ha, checkReg_ok hb]

theorem checkRegs_error_left {a : Byte} (b : Byte) (ha : 8 ≤ a.toNat) : checkRegs a b = .error (.invalidRegister a) := by
  simp [checkRegs, checkReg_error ha]

theorem checkRegs_error_right {a b : Byte} (ha : a.toNat < 8) (hb : 8 ≤ b.toNat) :
    checkRegs a b = .error (.invalidRegister b) := by
  simp [checkRegs, checkReg_ok ha, checkReg_error hb]

/-- Both bytes name registers, or the first byte that does not is reported. -/
theorem checkRegs_cases (a b : Byte) :
    (∃ ra rb : Reg, checkRegs a b = .ok (ra, rb) ∧ ra.val = a.toNat ∧ rb.val = b.toNat) ∨
    (∃ v, checkRegs a b = .error (.invalidRegister v) ∧ 8 ≤ v.toNat ∧ (v = a ∨ v = b)) := by
  by_cases ha : a.toNat < 8
  · by_cases hb : b.toNat < 8
    · exact .inl ⟨_, _, checkRegs_ok ha hb, rfl, rfl⟩
    · exact .inr ⟨b, checkRegs_error_right ha (by omega), by omega, .inr rfl⟩
  · exact .inr ⟨a, checkRegs_error_left b (by omega), by omega, .inl rfl⟩

/-! The ALU (R105). -/

@[simp] theorem aluApply_add (s : State) (d r : Reg) :
    s.aluApply .add d r = .ok (s.setReg d (BitVec.ofNat 8 ((s.getReg d).toNat + (s.getReg r).toNat))) := rfl

@[simp] theorem aluApply_mul (s : State) (d r : Reg) :
    s.aluApply .mul d r = .ok (s.setReg d (BitVec.ofNat 8 ((s.getReg d).toNat * (s.getReg r).toNat))) := rfl

/-! The end of an instruction (R101, R166). -/

@[simp] theorem complete_ok (s t : State) : s.complete (.ok t) = .next t := rfl

@[simp] theorem complete_error (s : State) (r : Raise) : s.complete (.error r) = .next (s.raise r) := rfl

/-- An instruction always answers a next state: its own, or fault entry from the state it began in. -/
theorem complete_next {x : Except Raise State} (h : s.complete x = .next t) :
    x = .ok t ∨ ∃ r, x = .error r ∧ t = s.raise r := by
  cases x with
  | ok u => exact .inl (by cases h; rfl)
  | error r => exact .inr ⟨r, rfl, by cases h; rfl⟩

/-! The fetch (R96-R98). -/

theorem dispatchOrRaise_eq_ok {m : OpcodeMap} {op : Byte} {h : Handler} (hd : dispatchOrRaise m op = .ok h) :
    dispatch m op = some h := by
  unfold dispatchOrRaise at hd
  split at hd
  · cases hd
    assumption
  · cases hd

/-- If an operand byte that the format has was read, its address is in memory and it is the cell's. -/
theorem readOperand_eq_ok {has : Bool} {addr : Addr} {v : Byte} (h : s.readOperand has addr = .ok v) :
    has = true → addr.toNat < memSize ∧ v = s.cell addr.toNat := by
  intro hh
  rw [State.readOperand, if_pos hh] at h
  exact memRead_eq_ok h

theorem operandCount_le (h : Handler) : h.operandCount ≤ 2 := by cases h <;> decide

@[simp] theorem handler_instr (h : Handler) (a b : Byte) : (h.instr a b).handler = h := by cases h <;> rfl

/-- If the fetch answers an instruction, all its bytes are in memory and the opcode byte dispatches to its handler. -/
theorem fetch_eq_ok {m : OpcodeMap} {i : Instr} (h : s.fetch m = .ok i) :
    s.pc.toNat + i.length ≤ memSize ∧ dispatch m (s.cell s.pc.toNat) = some i.handler := by
  unfold State.fetch at h
  obtain ⟨op, hop, h1⟩ := except_bind_eq_ok h
  obtain ⟨hd, hdis, h2⟩ := except_bind_eq_ok h1
  obtain ⟨a, ha, h3⟩ := except_bind_eq_ok h2
  obtain ⟨b, hb, h4⟩ := except_bind_eq_ok h3
  obtain ⟨hpc, rfl⟩ := memRead_eq_ok hop
  obtain rfl : hd.instr a b = i := by
    cases h4
    rfl
  refine ⟨?_, by simpa using dispatchOrRaise_eq_ok hdis⟩
  have hle := operandCount_le hd
  have h1 := readOperand_eq_ok ha
  have h2 := readOperand_eq_ok hb
  have e1 : (1 : Addr).toNat = 1 := rfl
  have e2 : (2 : Addr).toNat = 2 := rfl
  simp only [decide_eq_true_eq, memSize, BitVec.toNat_add, e1, e2] at h1 h2 hpc
  simp only [Instr.length, handler_instr, memSize]
  omega

/-! The step (R95). -/

theorem runStep_halted {m : OpcodeMap} {ex : Instr → State → Outcome} (h : s.rs = .halted) :
    runStep m ex s = .fault .halted := by
  rw [runStep, h]

theorem runStep_faulted {m : OpcodeMap} {ex : Instr → State → Outcome} (h : s.rs = .faulted) :
    runStep m ex s = .fault (.faulted s.faultRecord) := by
  rw [runStep, h]

theorem runStep_running {m : OpcodeMap} {ex : Instr → State → Outcome} (h : s.rs = .running) :
    runStep m ex s = match s.fetch m with
      | .ok i => ex i s
      | .error r => .next (s.raise r) := by
  cases hf : s.fetch m <;> simp only [runStep, h, hf]

/-- If a step answers a next state, the engine was RUNNING, and the state is what the fetched instruction answers or is
fault entry for a fault of the fetch. -/
theorem runStep_next {m : OpcodeMap} {ex : Instr → State → Outcome} (h : runStep m ex s = .next t) :
    s.rs = .running ∧
      ((∃ i, s.fetch m = .ok i ∧ ex i s = .next t) ∨ ∃ r, s.fetch m = .error r ∧ t = s.raise r) := by
  unfold runStep at h
  split at h
  · cases h
  · cases h
  · refine ⟨‹_›, ?_⟩
    split at h
    · exact .inl ⟨_, ‹_›, h⟩
    · exact .inr ⟨_, ‹_›, by cases h; rfl⟩

/-- The fixed machine is the machine under the default configuration, instruction by instruction. -/
theorem execWith_standard (i : Instr) (s : State) : execWith Config.standard i s = exec i s := by
  cases i <;> rfl

end Sys2Proof.Machine
end

