-- ==== Sys2Proof/Laws/Exec.lean ====
section
/-! SUPPORT. What each instruction can answer, said once: its result on operand bytes that name registers, and the one
inversion lemma for all of them, under any configuration. -/

namespace Sys2Proof.Machine

variable {c : Config} {s t : State} {a b : Byte} {r q : Reg}

theorem execLdi_eq (h : a.toNat = r.val) : execLdi a b s = .next ((s.setReg r b).advance 3) := by
  simp only [execLdi, checkReg_of_eq h, immediate]
  rfl

theorem execPrn_eq (h : a.toNat = r.val) : execPrn a s = .next ((s.emit (s.getReg r)).advance 2) := by
  simp only [execPrn, checkReg_of_eq h]
  rfl

theorem execMul_eq (ha : a.toNat = r.val) (hb : b.toNat = q.val) :
    execMul a b s =
      .next ((s.setReg r (BitVec.ofNat 8 ((s.getReg r).toNat * (s.getReg q).toNat))).advance 3) := by
  simp only [execMul, State.arith, checkRegs_of_eq ha hb]
  rfl

theorem execAdd_eq (ha : a.toNat = r.val) (hb : b.toNat = q.val) :
    execAdd a b s =
      .next ((s.setReg r (BitVec.ofNat 8 ((s.getReg r).toNat + (s.getReg q).toNat))).advance 3) := by
  simp only [execAdd, State.arith, checkRegs_of_eq ha hb]
  rfl

theorem execCmpWith_eq (sticky : Bool) (ha : a.toNat = r.val) (hb : b.toNat = q.val) :
    execCmpWith sticky a b s =
      .next ((s.setFl (compareFlags sticky s.fl (s.getReg r) (s.getReg q))).advance 3) := by
  simp only [execCmpWith, checkRegs_of_eq ha hb]
  rfl

theorem execPush_eq (h : a.toNat = r.val) :
    execPush a s =
      .next { s.decSp with mem := Memory.write s.mem s.decSp.sp.toNat (s.decSp.getReg r), pc := s.pc + 2 } := by
  simp only [execPush, checkReg_of_eq h, except_bind_ok, writeTop_eq]
  rfl

theorem execPop_eq (h : a.toNat = r.val) :
    execPop a s = .next ((s.setReg r (s.cell s.sp.toNat)).incSp.advance 2) := by
  simp only [execPop, checkReg_of_eq h, except_bind_ok, readTop_eq]
  rfl

theorem returnAddress_ok (h : s.pc.toNat ≤ 253) : s.returnAddress = .ok ((s.pc + 2).setWidth 8) :=
  if_pos (show s.pc.toNat + 2 < 256 by omega)

theorem returnAddress_error (h : 254 ≤ s.pc.toNat) : s.returnAddress = .error (.outOfBounds (s.pc + 2)) :=
  if_neg (show ¬s.pc.toNat + 2 < 256 by omega)

theorem execCall_eq (h : a.toNat = r.val) (hp : s.pc.toNat ≤ 253) :
    execCall a s =
      .next { s.decSp with
        mem := Memory.write s.mem s.decSp.sp.toNat ((s.pc + 2).setWidth 8), pc := zext9 (s.decSp.getReg r) } := by
  simp only [execCall, checkReg_of_eq h, except_bind_ok, writeTop_eq, returnAddress_ok hp]
  rfl

/-- CALL whose return address is no valid address (R141). -/
theorem execCall_past_end (h : a.toNat = r.val) (hp : 254 ≤ s.pc.toNat) :
    execCall a s = .next (s.raise (.outOfBounds (s.pc + 2))) := by
  simp only [execCall, checkReg_of_eq h, except_bind_ok, returnAddress_error hp]
  rfl

theorem execRet_eq (s : State) : execRet s = .next (s.incSp.jumpTo (s.cell s.sp.toNat)) := by
  simp only [execRet, except_bind_ok, readTop_eq]
  rfl

theorem execJmp_eq (h : a.toNat = r.val) : execJmp a s = .next (s.jumpTo (s.getReg r)) := by
  simp only [execJmp, checkReg_of_eq h]
  rfl

theorem branch_eq (taken : Bool) (h : a.toNat = r.val) :
    s.branch taken a = .next (if taken then s.jumpTo (s.getReg r) else s.advance 2) := by
  simp only [State.branch, checkReg_of_eq h]
  rfl

/-- The first operand byte in a register position that names no register, if there is one (R99). -/
def badRegister : Instr → Option Byte
  | .hlt => none
  | .ldi a _ => if Byte.isReg a then none else some a
  | .prn a => if Byte.isReg a then none else some a
  | .mul a b => if Byte.isReg a then (if Byte.isReg b then none else some b) else some a
  | .add a b => if Byte.isReg a then (if Byte.isReg b then none else some b) else some a
  | .push a => if Byte.isReg a then none else some a
  | .pop a => if Byte.isReg a then none else some a
  | .call a => if Byte.isReg a then none else some a
  | .ret => none
  | .cmp a b => if Byte.isReg a then (if Byte.isReg b then none else some b) else some a
  | .jmp a => if Byte.isReg a then none else some a
  | .jeq a => if Byte.isReg a then none else some a
  | .jne a => if Byte.isReg a then none else some a

theorem isReg_iff (v : Byte) : Byte.isReg v = true ↔ v.toNat < 8 := by simp [Byte.isReg]

theorem isReg_of_eq (h : a.toNat = r.val) : Byte.isReg a = true := (isReg_iff a).2 (by omega)

theorem isReg_false {v : Byte} (h : 8 ≤ v.toNat) : Byte.isReg v = false := by
  simp only [Byte.isReg, decide_eq_false_iff_not]
  omega

/-- An instruction with a bad register byte raises InvalidRegister with the first of them, in every state (R99, R162). -/
theorem execWith_bad {i : Instr} {v : Byte} (h : badRegister i = some v) :
    8 ≤ v.toNat ∧ ∀ s, execWith c i s = .next (s.raise (.invalidRegister v)) := by
  have one {a : Byte} (h : (if Byte.isReg a then none else some a) = some v) :
      8 ≤ v.toNat ∧ checkReg a = .error (.invalidRegister v) := by
    by_cases ha : a.toNat < 8
    · simp [(isReg_iff a).2 ha] at h
    · rw [isReg_false (by omega)] at h
      obtain rfl : a = v := by simpa using h
      exact ⟨by omega, checkReg_error (by omega)⟩
  have two {a b : Byte}
      (h : (if Byte.isReg a then (if Byte.isReg b then none else some b) else some a) = some v) :
      8 ≤ v.toNat ∧ checkRegs a b = .error (.invalidRegister v) := by
    by_cases ha : a.toNat < 8
    · rw [(isReg_iff a).2 ha, if_pos rfl] at h
      have hb := one h
      exact ⟨hb.1, by simp [checkRegs, checkReg_ok ha, hb.2]⟩
    · rw [isReg_false (by omega)] at h
      obtain rfl : a = v := by simpa using h
      exact ⟨by omega, checkRegs_error_left b (by omega)⟩
  cases i <;> simp only [badRegister, reduceCtorEq] at h <;>
    first
    | exact ⟨(one h).1, fun s => by
        simp only [execWith, execLdi, execPrn, execPush, execPop, execCall, execJmp, execJeq, execJne, State.branch,
          (one h).2]
        rfl⟩
    | exact ⟨(two h).1, fun s => by
        simp only [execWith, execMul, execAdd, execCmpWith, State.arith, (two h).2]
        rfl⟩

theorem wf_iff_badRegister (i : Instr) : i.wf = true ↔ badRegister i = none := by
  have two (a b : Byte) :
      (Byte.isReg a && Byte.isReg b) = true ↔
        (if Byte.isReg a then (if Byte.isReg b then none else some b) else some a) = none := by
    cases Byte.isReg a <;> cases Byte.isReg b <;> simp
  cases i <;> first | exact two _ _ | simp [Instr.wf, badRegister]

/-- Everything an instruction can answer from `s`: one constructor per instruction on operand bytes that name registers,
and the two faults an instruction can take. -/
inductive ExecResult (c : Config) (s : State) : Instr → State → Prop where
  | invalidRegister {i : Instr} {v : Byte} (h : badRegister i = some v) (hv : 8 ≤ v.toNat) :
      ExecResult c s i (s.raise (.invalidRegister v))
  | returnAddress {a : Byte} {r : Reg} (h : a.toNat = r.val) (hp : 254 ≤ s.pc.toNat) :
      ExecResult c s (.call a) (s.raise (.outOfBounds (s.pc + 2)))
  | hlt : ExecResult c s .hlt s.halt
  | ldi {a b : Byte} {r : Reg} (h : a.toNat = r.val) : ExecResult c s (.ldi a b) ((s.setReg r b).advance 3)
  | prn {a : Byte} {r : Reg} (h : a.toNat = r.val) : ExecResult c s (.prn a) ((s.emit (s.getReg r)).advance 2)
  | mul {a b : Byte} {r q : Reg} (ha : a.toNat = r.val) (hb : b.toNat = q.val) :
      ExecResult c s (.mul a b)
        ((s.setReg r (BitVec.ofNat 8 ((s.getReg r).toNat * (s.getReg q).toNat))).advance 3)
  | add {a b : Byte} {r q : Reg} (ha : a.toNat = r.val) (hb : b.toNat = q.val) :
      ExecResult c s (.add a b)
        ((s.setReg r (BitVec.ofNat 8 ((s.getReg r).toNat + (s.getReg q).toNat))).advance 3)
  | cmp {a b : Byte} {r q : Reg} (ha : a.toNat = r.val) (hb : b.toNat = q.val) :
      ExecResult c s (.cmp a b)
        ((s.setFl (compareFlags c.cmpStickyE s.fl (s.getReg r) (s.getReg q))).advance 3)
  | push {a : Byte} {r : Reg} (h : a.toNat = r.val) :
      ExecResult c s (.push a)
        { s.decSp with mem := Memory.write s.mem s.decSp.sp.toNat (s.decSp.getReg r), pc := s.pc + 2 }
  | pop {a : Byte} {r : Reg} (h : a.toNat = r.val) :
      ExecResult c s (.pop a) ((s.setReg r (s.cell s.sp.toNat)).incSp.advance 2)
  | call {a : Byte} {r : Reg} (h : a.toNat = r.val) (hp : s.pc.toNat ≤ 253) :
      ExecResult c s (.call a)
        { s.decSp with
          mem := Memory.write s.mem s.decSp.sp.toNat ((s.pc + 2).setWidth 8), pc := zext9 (s.decSp.getReg r) }
  | ret : ExecResult c s .ret (s.incSp.jumpTo (s.cell s.sp.toNat))
  | jmp {a : Byte} {r : Reg} (h : a.toNat = r.val) : ExecResult c s (.jmp a) (s.jumpTo (s.getReg r))
  | jeqTaken {a : Byte} {r : Reg} (h : a.toNat = r.val) (he : s.e = true) :
      ExecResult c s (.jeq a) (s.jumpTo (s.getReg r))
  | jeqNot {a : Byte} {r : Reg} (h : a.toNat = r.val) (he : s.e = false) : ExecResult c s (.jeq a) (s.advance 2)
  | jneTaken {a : Byte} {r : Reg} (h : a.toNat = r.val) (he : s.e = false) :
      ExecResult c s (.jne a) (s.jumpTo (s.getReg r))
  | jneNot {a : Byte} {r : Reg} (h : a.toNat = r.val) (he : s.e = true) : ExecResult c s (.jne a) (s.advance 2)

/-- Every instruction answers a next state, from every state and under every configuration, and it is one of these. -/
theorem execWith_result (c : Config) (i : Instr) (s : State) : ∃ t, execWith c i s = .next t ∧ ExecResult c s i t := by
  cases hbad : badRegister i with
  | some v => exact ⟨_, (execWith_bad hbad).2 s, .invalidRegister hbad (execWith_bad (c := c) hbad).1⟩
  | none =>
    have hwf := (wf_iff_badRegister i).2 hbad
    have name {a : Byte} (h : Byte.isReg a = true) : ∃ r : Reg, a.toNat = r.val := ⟨⟨a.toNat, (isReg_iff a).1 h⟩, rfl⟩
    cases i with
    | hlt => exact ⟨_, rfl, .hlt⟩
    | ldi a b =>
      obtain ⟨r, h⟩ := name hwf
      exact ⟨_, execLdi_eq h, .ldi h⟩
    | prn a =>
      obtain ⟨r, h⟩ := name hwf
      exact ⟨_, execPrn_eq h, .prn h⟩
    | mul a b =>
      simp only [Instr.wf, Bool.and_eq_true] at hwf
      obtain ⟨r, ha⟩ := name hwf.1
      obtain ⟨q, hb⟩ := name hwf.2
      exact ⟨_, execMul_eq ha hb, .mul ha hb⟩
    | add a b =>
      simp only [Instr.wf, Bool.and_eq_true] at hwf
      obtain ⟨r, ha⟩ := name hwf.1
      obtain ⟨q, hb⟩ := name hwf.2
      exact ⟨_, execAdd_eq ha hb, .add ha hb⟩
    | push a =>
      obtain ⟨r, h⟩ := name hwf
      exact ⟨_, execPush_eq h, .push h⟩
    | pop a =>
      obtain ⟨r, h⟩ := name hwf
      exact ⟨_, execPop_eq h, .pop h⟩
    | call a =>
      obtain ⟨r, h⟩ := name hwf
      by_cases hp : s.pc.toNat ≤ 253
      · exact ⟨_, execCall_eq h hp, .call h hp⟩
      · exact ⟨_, execCall_past_end h (by omega), .returnAddress h (by omega)⟩
    | ret => exact ⟨_, execRet_eq s, .ret⟩
    | cmp a b =>
      simp only [Instr.wf, Bool.and_eq_true] at hwf
      obtain ⟨r, ha⟩ := name hwf.1
      obtain ⟨q, hb⟩ := name hwf.2
      exact ⟨_, execCmpWith_eq _ ha hb, .cmp ha hb⟩
    | jmp a =>
      obtain ⟨r, h⟩ := name hwf
      exact ⟨_, execJmp_eq h, .jmp h⟩
    | jeq a =>
      obtain ⟨r, h⟩ := name hwf
      refine ⟨_, branch_eq s.e h, ?_⟩
      cases he : s.e
      · exact .jeqNot h he
      · exact .jeqTaken h he
    | jne a =>
      obtain ⟨r, h⟩ := name hwf
      refine ⟨_, branch_eq (!s.e) h, ?_⟩
      cases he : s.e
      · exact .jneTaken h he
      · exact .jneNot h he

/-- If an instruction answers a next state, it is one of these. -/
theorem execWith_next {i : Instr} (h : execWith c i s = .next t) : ExecResult c s i t := by
  obtain ⟨u, hu, hr⟩ := execWith_result c i s
  cases hu.symm.trans h
  exact hr

/-- The same of the fixed machine. -/
theorem exec_next {i : Instr} (h : exec i s = .next t) : ExecResult Config.standard s i t :=
  execWith_next ((execWith_standard i s).trans h)

end Sys2Proof.Machine
end

