-- ==== Sys2Proof/Laws/Fetch.lean ====
section
/-! SUPPORT. The dispatcher, and the fetch as a function of the cells at `pc` (`spec/40_engine_cycle.md` R96-R98, R104). -/

namespace Sys2Proof.Machine

theorem mem_handlers (h : Handler) : h ∈ Handler.all := by cases h <;> decide

/-- If a byte dispatches to a handler, it is that handler's opcode. -/
theorem dispatch_eq_some {m : OpcodeMap} {op : Byte} {h : Handler} (hd : dispatch m op = some h) : m h = op := by
  simpa using List.find?_some hd

/-- A byte that is no handler's opcode dispatches to none. -/
theorem dispatch_eq_none {m : OpcodeMap} {op : Byte} (hn : ∀ h, m h ≠ op) : dispatch m op = none := by
  cases hd : dispatch m op with
  | none => rfl
  | some k => exact absurd (dispatch_eq_some hd) (hn k)

theorem dispatch_standard (h : Handler) : dispatch OpcodeMap.standard (OpcodeMap.standard h) = some h := by
  cases h <;> rfl

/-- The addresses of the operand bytes do not wrap while `pc` is in 0..256. -/
theorem pc_add_toNat {pc : Addr} {k : Nat} (hk : k ≤ 3) (h : pc.toNat ≤ 256) :
    (pc + BitVec.ofNat 9 k).toNat = pc.toNat + k := by
  simp only [BitVec.toNat_add, BitVec.toNat_ofNat]
  omega

/-- What the fetch answers, read from the cells at `pc`, `pc + 1` and `pc + 2`. -/
theorem fetch_eq_cells (m : OpcodeMap) (s : State) :
    s.fetch m =
      if s.pc.toNat < 256 then
        match dispatch m (s.cell s.pc.toNat) with
        | none => .error (.unknownOpcode (s.cell s.pc.toNat))
        | some h =>
          if h.operandCount = 0 then .ok (h.instr 0 0)
          else if s.pc.toNat + 1 < 256 then
            if h.operandCount = 1 then .ok (h.instr (s.cell (s.pc.toNat + 1)) 0)
            else if s.pc.toNat + 2 < 256 then .ok (h.instr (s.cell (s.pc.toNat + 1)) (s.cell (s.pc.toNat + 2)))
            else .error (.outOfBounds (s.pc + 2))
          else .error (.outOfBounds (s.pc + 1))
      else .error (.outOfBounds s.pc) := by
  unfold State.fetch
  by_cases hp : s.pc.toNat < 256
  · rw [if_pos hp, memRead_ok hp, except_bind_ok, dispatchOrRaise]
    cases hd : dispatch m (s.cell s.pc.toNat) with
    | none => rfl
    | some h =>
      have hn : h.operandCount = 0 ∨ h.operandCount = 1 ∨ h.operandCount = 2 := by
        have := operandCount_le h
        omega
      have e1 : (s.pc + 1#9).toNat = s.pc.toNat + 1 := pc_add_toNat (by omega) (by omega)
      have e2 : (s.pc + 2#9).toNat = s.pc.toNat + 2 := pc_add_toNat (by omega) (by omega)
      rw [except_bind_ok]
      by_cases hp1 : s.pc.toNat + 1 < 256
      · have r1 : s.memRead (s.pc + 1#9) = .ok (s.cell (s.pc.toNat + 1)) := by rw [memRead_ok (by rw [e1]; exact hp1), e1]
        by_cases hp2 : s.pc.toNat + 2 < 256
        · have r2 : s.memRead (s.pc + 2#9) = .ok (s.cell (s.pc.toNat + 2)) := by
            rw [memRead_ok (by rw [e2]; exact hp2), e2]
          rcases hn with hn | hn | hn <;> simp [State.readOperand, hn, r1, r2, hp1, hp2]
        · have r2 : s.memRead (s.pc + 2#9) = .error (.outOfBounds (s.pc + 2#9)) := memRead_error (show 256 ≤ _ by omega)
          rcases hn with hn | hn | hn <;> simp [State.readOperand, hn, r1, r2, hp1, hp2]
      · have r1 : s.memRead (s.pc + 1#9) = .error (.outOfBounds (s.pc + 1#9)) := memRead_error (show 256 ≤ _ by omega)
        rcases hn with hn | hn | hn <;> simp [State.readOperand, hn, r1, hp1]
  · rw [if_neg hp, memRead_error (show 256 ≤ _ by omega)]
    rfl

end Sys2Proof.Machine
end

