-- ==== Sys2Proof/Laws/Flags.lean ====
section
/-! SUPPORT. The bits of the flags register after a write of E and after CMP (`spec/10_state.md` R28, R29). -/

namespace Sys2Proof.Machine

@[simp] theorem withFlagE_zero (fl : Byte) (e : Bool) : (withFlagE fl e)[0] = e := by
  cases e <;> simp [withFlagE]

/-- Bits 7..1 are not written. -/
theorem withFlagE_other (fl : Byte) (e : Bool) {k : Nat} (hk : 0 < k) : (withFlagE fl e).getLsbD k = fl.getLsbD k := by
  by_cases h8 : k < 8
  · have : k = 1 ∨ k = 2 ∨ k = 3 ∨ k = 4 ∨ k = 5 ∨ k = 6 ∨ k = 7 := by omega
    rcases this with rfl | rfl | rfl | rfl | rfl | rfl | rfl <;> cases e <;> simp [withFlagE]
  · rw [BitVec.getLsbD_of_ge _ _ (by omega), BitVec.getLsbD_of_ge _ _ (by omega)]

/-- Flags of 0 or 1, bits 7..1 being 0, stay so. -/
theorem withFlagE_le_one {fl : Byte} (e : Bool) (h : fl.toNat ≤ 1) : (withFlagE fl e).toNat ≤ 1 := by
  have hfl : fl = 0 ∨ fl = 1 :=
    (Nat.le_one_iff_eq_zero_or_eq_one.1 h).imp (fun h => BitVec.eq_of_toNat_eq h) (fun h => BitVec.eq_of_toNat_eq h)
  rcases hfl with rfl | rfl <;> cases e <;> decide

/-- What CMP can leave: E written, or under the sticky parameter the flags as they were. -/
theorem compareFlags_cases (sticky : Bool) (fl p q : Byte) :
    compareFlags sticky fl p q = withFlagE fl (decide (p = q)) ∨
    (sticky = true ∧ p ≠ q ∧ compareFlags sticky fl p q = fl) := by
  unfold compareFlags
  by_cases h : p = q
  · simp [h]
  · cases sticky <;> simp [h]

end Sys2Proof.Machine
end

