-- ==== Sys2Proof/Laws/PerInstr.lean ====
section
/-! SUPPORT. A fact of every instruction as syntax: its encoding is as long as its format says (R70, R72). -/

namespace Sys2Proof.Laws.EncodedLength

/-- The encoding has the instruction's length, which is 1 to 3 bytes and leaves the operand count of the format. -/
def Statement (i : Instr) : Prop :=
  (encode i).length = i.length ∧ i.length = 1 + i.handler.format.operandCount ∧ i.length ≤ 3

theorem hlt : Statement .hlt := ⟨rfl, rfl, Nat.le_of_ble_eq_true rfl⟩
theorem ldi (a b : Byte) : Statement (.ldi a b) := ⟨rfl, rfl, Nat.le_of_ble_eq_true rfl⟩
theorem prn (a : Byte) : Statement (.prn a) := ⟨rfl, rfl, Nat.le_of_ble_eq_true rfl⟩
theorem mul (a b : Byte) : Statement (.mul a b) := ⟨rfl, rfl, Nat.le_of_ble_eq_true rfl⟩
theorem add (a b : Byte) : Statement (.add a b) := ⟨rfl, rfl, Nat.le_of_ble_eq_true rfl⟩
theorem push (a : Byte) : Statement (.push a) := ⟨rfl, rfl, Nat.le_of_ble_eq_true rfl⟩
theorem pop (a : Byte) : Statement (.pop a) := ⟨rfl, rfl, Nat.le_of_ble_eq_true rfl⟩
theorem call (a : Byte) : Statement (.call a) := ⟨rfl, rfl, Nat.le_of_ble_eq_true rfl⟩
theorem ret : Statement .ret := ⟨rfl, rfl, Nat.le_of_ble_eq_true rfl⟩
theorem cmp (a b : Byte) : Statement (.cmp a b) := ⟨rfl, rfl, Nat.le_of_ble_eq_true rfl⟩
theorem jmp (a : Byte) : Statement (.jmp a) := ⟨rfl, rfl, Nat.le_of_ble_eq_true rfl⟩
theorem jeq (a : Byte) : Statement (.jeq a) := ⟨rfl, rfl, Nat.le_of_ble_eq_true rfl⟩
theorem jne (a : Byte) : Statement (.jne a) := ⟨rfl, rfl, Nat.le_of_ble_eq_true rfl⟩

end Sys2Proof.Laws.EncodedLength
end

