-- ==== Sys2Proof/Tests/Slice0.lean ====
section
/-! SUPPORT. Tests: ill-formed terms are refused, words written out from the encoding table decode, single steps give the
values of `spec/95_test_vectors.md`, and every obligation with hypotheses has a state and operands that meet them. -/

namespace Sys2Proof.Machine

/-- A reset state with `pc` at an address and bytes stored there. -/
def bytesAt (pc : Addr) (bytes : List Byte) : State := { State.reset with pc := pc }.placeAtPc bytes

/-- The same with one register set first. -/
def withReg (r : Reg) (v : Byte) (s : State) : State := s.setReg r v

/-- The same with one cell of memory set first. -/
def withCell (a : Nat) (v : Byte) (s : State) : State := { s with mem := Memory.write s.mem a v }

/-- What is read of a state after one step; none where there is no next state. -/
def afterStep {α : Type} (s : State) (f : State → α) : Option α :=
  match step s with
  | .next t => some (f t)
  | _ => none

/-! WellFormed: one ill-formed term for each check (R73, R99). -/

theorem test_wf_ldi : (Instr.ldi 8 0).wf = false ∧ (Instr.ldi 7 0xFF).wf = true := by decide
theorem test_wf_prn : (Instr.prn 9).wf = false := by decide
theorem test_wf_mul_a : (Instr.mul 8 0).wf = false := by decide
theorem test_wf_mul_b : (Instr.mul 0 8).wf = false := by decide
theorem test_wf_add_a : (Instr.add 9 7).wf = false := by decide
theorem test_wf_add_b : (Instr.add 7 10).wf = false := by decide
theorem test_wf_push : (Instr.push 8).wf = false := by decide
theorem test_wf_pop : (Instr.pop 0xFF).wf = false := by decide
theorem test_wf_call : (Instr.call 9).wf = false := by decide
theorem test_wf_cmp_a : (Instr.cmp 8 0).wf = false := by decide
theorem test_wf_cmp_b : (Instr.cmp 0 8).wf = false := by decide
theorem test_wf_jmp : (Instr.jmp 8).wf = false := by decide
theorem test_wf_jeq : (Instr.jeq 8).wf = false := by decide
theorem test_wf_jne : (Instr.jne 128).wf = false := by decide

/-! Decoding: the bits of R76 and the operand order of R75, each word written out by hand. -/

theorem test_decode_hlt : decode [0b00000001#8] = .ok (.hlt, []) := rfl
theorem test_decode_ldi : decode [0b10000010#8, 0b00000001#8, 0b00001001#8] = .ok (.ldi 1 9, []) := rfl
theorem test_decode_prn : decode [0b01000111#8, 0b00000110#8] = .ok (.prn 6, []) := rfl
theorem test_decode_mul : decode [0b10100010#8, 0b00000010#8, 0b00000011#8] = .ok (.mul 2 3, []) := rfl
theorem test_decode_add : decode [0b10100000#8, 0b00000111#8, 0b00000001#8] = .ok (.add 7 1, []) := rfl
theorem test_decode_push : decode [0b01000101#8, 0b00000100#8, 0b00000001#8] = .ok (.push 4, [0x01]) := rfl
theorem test_decode_pop : decode [0b01000110#8, 0b00000101#8] = .ok (.pop 5, []) := rfl
theorem test_decode_call : decode [0b01010000#8, 0b00000001#8] = .ok (.call 1, []) := rfl
theorem test_decode_ret : decode [0b00010001#8] = .ok (.ret, []) := rfl
theorem test_decode_cmp : decode [0b10100111#8, 0b00000000#8, 0b00000010#8] = .ok (.cmp 0 2, []) := rfl
theorem test_decode_jmp : decode [0b01010100#8, 0b00000011#8] = .ok (.jmp 3, []) := rfl
theorem test_decode_jeq : decode [0b01010101#8, 0b00000010#8] = .ok (.jeq 2, []) := rfl
theorem test_decode_jne : decode [0b01010110#8, 0b00000111#8] = .ok (.jne 7, []) := rfl

/-- A register byte of 8 or more is decoded whole, not masked (R73); its instruction is ill-formed. -/
theorem test_decode_not_masked : decode [0x47#8, 0x09] = .ok (.prn 9, []) := rfl

/-- V74, V76, V77, V78: bytes near an opcode are unknown. -/
theorem test_decode_unknown :
    decode [0x83#8, 0x00, 0x00] = .error (.unknownOpcode 0x83) ∧ decode [0xA1#8] = .error (.unknownOpcode 0xA1) ∧
    decode [0x81#8] = .error (.unknownOpcode 0x81) ∧ decode [0xC0#8] = .error (.unknownOpcode 0xC0) := ⟨rfl, rfl, rfl, rfl⟩

theorem test_decode_missing :
    decode [] = .error (.missing 0) ∧ decode [0x82#8] = .error (.missing 1) ∧
    decode [0x82#8, 0x00] = .error (.missing 2) := ⟨rfl, rfl, rfl⟩

/-- A word of the opcode table: its lowest byte is the opcode, and what lies above its bits is zero. -/
theorem test_table_word :
    decodeTableWord 24 0x080182 = some (.ldi 1 8) ∧ decodeTableWord 8 0xFFFF82 = some (.ldi 0 0) ∧
    decodeTableWord 8 0x00 = none := by decide

theorem test_table_word_runs :
    afterStep (State.reset.withFetchWord 24 0x080182) (fun t => (t.getReg 1, t.pc)) = some (8, 3) := by decide

/-! Single steps: the vectors of `spec/95_test_vectors.md`, by number. -/

/-- V2. -/
theorem test_hlt : afterStep (bytesAt 0xFF [0x01]) (fun t => (t.rs, t.pc)) = some (.halted, 0xFF) := by decide
/-- V4. -/
theorem test_ldi_sp : afterStep (bytesAt 0 [0x82, 0x07, 0x09]) (fun t => (t.sp, t.pc)) = some (9, 3) := by decide
/-- V8. -/
theorem test_ldi_last : afterStep (bytesAt 0xFD [0x82, 1, 7]) (fun t => (t.getReg 1, t.pc)) = some (7, 0x100) := by decide
/-- V12. -/
theorem test_prn_sp : afterStep (bytesAt 0 [0x47, 0x07]) (fun t => (t.out, t.pc)) = some ([244], 2) := by decide
/-- V13. -/
theorem test_prn_appends :
    afterStep { bytesAt 0 [0x47, 0x02] with out := [1] } State.out = some [1, 0] := by decide
/-- V17h. -/
theorem test_mul_wraps :
    afterStep (withReg 0 0x0D (withReg 1 0x14 (bytesAt 0 [0xA2, 0, 1]))) (·.getReg 0) = some 0x04 := by decide
/-- V20. -/
theorem test_mul_square : afterStep (withReg 0 3 (bytesAt 0 [0xA2, 0, 0])) (·.getReg 0) = some 9 := by decide
/-- V18a. -/
theorem test_add_wraps :
    afterStep (withReg 0 255 (withReg 1 2 (bytesAt 0 [0xA0, 0, 1]))) (·.getReg 0) = some 1 := by decide
/-- V22. -/
theorem test_add_sp : afterStep (withReg 1 1 (bytesAt 0 [0xA0, 7, 1])) State.sp = some 0xF5 := by decide
/-- V26, under the default CMP_STICKY_E. -/
theorem test_cmp_clears :
    afterStep { withReg 0 5 (withReg 1 6 (bytesAt 0 [0xA7, 0, 1])) with fl := 1 } (fun t => (t.fl, t.pc)) =
      some (0, 3) := by decide
/-- V28. -/
theorem test_cmp_equal : afterStep (bytesAt 0 [0xA7, 0, 1]) State.fl = some 1 := by decide
/-- V37. -/
theorem test_push_wraps :
    afterStep (withReg 7 0 (withReg 0 0x33 (bytesAt 0 [0x45, 0]))) (fun t => (t.sp, t.cell 0xFF, t.pc)) =
      some (0xFF, 0x33, 2) := by decide
/-- V39. -/
theorem test_push_sp : afterStep (bytesAt 0 [0x45, 7]) (fun t => (t.sp, t.cell 0xF3)) = some (0xF3, 0xF3) := by decide
/-- V41. -/
theorem test_pop_wraps :
    afterStep (withReg 7 0xFF (withCell 0xFF 0x77 (bytesAt 0 [0x46, 0]))) (fun t => (t.getReg 0, t.sp, t.pc)) =
      some (0x77, 0, 2) := by decide
/-- V43a. -/
theorem test_pop_sp : afterStep (withCell 0xF4 0x20 (bytesAt 0 [0x46, 7])) State.sp = some 0x21 := by decide
/-- V49. -/
theorem test_call_last :
    afterStep (withReg 1 0x10 (bytesAt 0xFD [0x50, 1])) (fun t => (t.sp, t.cell 0xF3, t.pc)) =
      some (0xF3, 0xFF, 0x10) := by decide
/-- V53. -/
theorem test_call_sp :
    afterStep (bytesAt 0 [0x50, 7]) (fun t => (t.cell 0xF3, t.pc)) = some (0x02, 0xF3) := by decide
/-- V55. -/
theorem test_ret :
    afterStep (withReg 7 0xF3 (withCell 0xF3 5 (bytesAt 0x0E [0x11]))) (fun t => (t.pc, t.sp, t.cell 0xF3)) =
      some (5, 0xF4, 5) := by decide
/-- V57. -/
theorem test_ret_wraps :
    afterStep (withReg 7 0xFF (withCell 0xFF 0x30 (bytesAt 0 [0x11]))) (fun t => (t.pc, t.sp)) = some (0x30, 0) := by decide
/-- V59. -/
theorem test_jmp :
    afterStep { withReg 0 0x80 (bytesAt 0 [0x54, 0]) with fl := 1 } (fun t => (t.pc, t.fl)) = some (0x80, 1) := by decide
/-- V62. -/
theorem test_jmp_sp : afterStep (bytesAt 0 [0x54, 7]) State.pc = some 0xF4 := by decide
/-- V63. -/
theorem test_jeq_taken :
    afterStep { withReg 2 0x40 (bytesAt 0 [0x55, 2]) with fl := 1 } State.pc = some 0x40 := by decide
/-- V69. -/
theorem test_jeq_not_taken : afterStep (bytesAt 0xFE [0x55, 0]) State.pc = some 0x100 := by decide
/-- V65. -/
theorem test_jne_taken : afterStep (withReg 2 0x40 (bytesAt 0 [0x56, 2])) State.pc = some 0x40 := by decide
/-- V66. -/
theorem test_jne_not_taken :
    afterStep { withReg 2 0x40 (bytesAt 0 [0x56, 2]) with fl := 1 } State.pc = some 2 := by decide

/-! Faults: what the record holds after the step. -/

/-- V34: the operand fetch comes before register validation. -/
theorem test_fault_fetch_before_validation :
    afterStep (bytesAt 0xFE [0xA0, 9]) State.faultRecord = some (some ⟨.outOfBounds, 0xFE, 256⟩) := by decide
/-- V31: `a` is validated before `b`. -/
theorem test_fault_a_before_b :
    afterStep (bytesAt 0 [0xA0, 9, 0x0A]) State.faultRecord = some (some ⟨.invalidRegister, 0, 9⟩) := by decide
/-- V51: validation comes before the return-address check. -/
theorem test_fault_validation_before_return_address :
    afterStep (bytesAt 0xFE [0x50, 9]) State.faultRecord = some (some ⟨.invalidRegister, 0xFE, 9⟩) := by decide
/-- V50: CALL at 254. -/
theorem test_fault_return_address :
    afterStep (withReg 1 0x10 (bytesAt 0xFE [0x50, 1])) (fun t => (t.faultRecord, t.sp, t.pc, t.rs)) =
      some (some ⟨.outOfBounds, 0xFE, 256⟩, 0xF4, 0xFE, .faulted) := by decide
/-- V67: a jump not taken is validated. -/
theorem test_fault_not_taken :
    afterStep (bytesAt 0 [0x55, 8]) State.faultRecord = some (some ⟨.invalidRegister, 0, 8⟩) := by decide
/-- V72, V79: the empty image, and `pc` past the end. -/
theorem test_fault_fetch :
    afterStep State.reset State.faultRecord = some (some ⟨.unknownOpcode, 0, 0⟩) ∧
    afterStep { State.reset with pc := 0x100 } State.faultRecord = some (some ⟨.outOfBounds, 0x100, 256⟩) := by decide
/-- V80, V81: no step outside RUNNING. -/
theorem test_no_step :
    afterStep { bytesAt 0 [0x01] with rs := .halted } State.pc = none ∧
    afterStep { bytesAt 0 [0x01] with rs := .faulted } State.pc = none := by decide

/-! Witnesses: for each obligation with hypotheses, values that meet them, at the edges of their ranges. -/

theorem standard_valid : OpcodeMap.standard.valid = true := by decide

theorem witness_DecodeInvertsEncode : OpcodeMap.standard.valid = true := standard_valid

theorem witness_EncodeInvertsDecode :
    decodeWith OpcodeMap.standard [0x82, 0xFF, 0x00, 0x01] = .ok (.ldi 0xFF 0, [0x01]) := rfl

theorem witness_DispatcherMapsThirteenValues :
    OpcodeMap.standard.valid = true ∧ ∀ h, OpcodeMap.standard h ≠ 0x00 :=
  ⟨standard_valid, fun h => by cases h <;> decide⟩

theorem witness_LengthFromTheHighBits : OpcodeMap.standard.valid = true := standard_valid

theorem witness_MemReadIsBoundsChecked : 256 ≤ (256 : Addr).toNat ∧ (255 : Addr).toNat < 256 := by decide

theorem witness_MemWriteIsBoundsChecked :
    256 ≤ (256 : Addr).toNat ∧ (255 : Addr).toNat < 256 ∧ Memory.wf State.reset.mem = true := by decide

/-- The same two writes in either order. -/
theorem witness_EqualMemoriesAreEqualData :
    Memory.wf (Memory.write (Memory.write [] 255 1) 0 2) = true ∧
    Memory.wf (Memory.write (Memory.write [] 0 2) 255 1) = true ∧
    ∀ a, a < 256 → Memory.read (Memory.write (Memory.write [] 255 1) 0 2) a =
      Memory.read (Memory.write (Memory.write [] 0 2) 255 1) a :=
  ⟨by decide, by decide, fun _ _ => rfl⟩

/-- A byte that names the last register, the first byte that names none, and two different registers. -/
theorem witness_RegisterFileContract :
    (7 : Byte).toNat = (7 : Reg).val ∧ 8 ≤ (8 : Byte).toNat ∧ (0 : Reg) ≠ 7 := by decide

theorem witness_AluContract :
    (0 : Byte).toNat = (0 : Reg).val ∧ (7 : Byte).toNat = (7 : Reg).val ∧
    ∃ t, exec (.cmp 0 7) State.reset = .next t := ⟨by decide, by decide, _, rfl⟩

theorem witness_ResetLeavesTheSpecsValues : (6 : Reg) ≠ spIndex := by decide

/-- An image that fills memory, and one that is one byte too long. -/
theorem witness_LaunchLoadsTheImage :
    ∃ full long : List Byte, full.length = 256 ∧ long.length = 257 ∧ ([] : List Byte).length ≤ 0 :=
  ⟨List.replicate 256 1, List.replicate 257 1, List.length_replicate, List.length_replicate, Nat.le_refl 0⟩

/-- Three bytes that end at the last cell. -/
theorem witness_StepRunsTheDecodedInstruction :
    (bytesAt 253 [0x82, 7, 9]).rs = .running ∧ (bytesAt 253 [0x82, 7, 9]).holdsAtPc [0x82, 7, 9] ∧
    decode [0x82, 7, 9] = .ok (.ldi 7 9, []) := ⟨rfl, ⟨by decide, by decide⟩, rfl⟩

/-- An instruction that ends at the last cell, an unknown byte in the last cell, and the three bytes that can be missing. -/
theorem witness_StepIsDecodeOfTheReadableBytes :
    (bytesAt 253 [0x82, 7, 9]).rs = .running ∧ decode (bytesAt 253 [0x82, 7, 9]).window = .ok (.ldi 7 9, []) ∧
    decode (bytesAt 255 [0xC0]).window = .error (.unknownOpcode 0xC0) ∧
    decode (bytesAt 256 []).window = .error (.missing 0) ∧ decode (bytesAt 255 [0x82]).window = .error (.missing 1) ∧
    decode (bytesAt 254 [0x82, 7]).window = .error (.missing 2) := ⟨rfl, rfl, rfl, rfl, rfl, rfl⟩

theorem witness_StepExistsExactlyWhenRunning :
    State.reset.rs = .running ∧ State.reset.halt.rs = .halted ∧ (State.reset.raise (.unknownOpcode 0)).rs = .faulted :=
  ⟨rfl, rfl, rfl⟩

theorem witness_PlacedTableWordRunsNext :
    (bytesAt 253 []).rs = .running ∧ (bytesAt 253 []).pc.toNat ≤ 253 ∧ Memory.wf (bytesAt 253 []).mem = true ∧
    decodeTableWord 24 0x080182 = some (.ldi 1 8) := by decide

theorem witness_HltRule : (bytesAt 255 [0x01]).atOpcode .hlt := ⟨rfl, by decide, rfl⟩

theorem witness_LdiRule :
    (7 : Byte).toNat = (7 : Reg).val ∧ 8 ≤ (8 : Byte).toNat ∧ (bytesAt 254 [0x82]).atOpcode .ldi ∧
    (bytesAt 255 [0x82]).atOpcode .ldi := ⟨by decide, by decide, ⟨rfl, by decide, rfl⟩, ⟨rfl, by decide, rfl⟩⟩

theorem witness_PrnRule :
    (7 : Byte).toNat = (7 : Reg).val ∧ 8 ≤ (8 : Byte).toNat ∧ (bytesAt 255 [0x47]).atOpcode .prn :=
  ⟨by decide, by decide, rfl, by decide, rfl⟩

/-- Both operands the same register, the last one; a bad first byte; a bad second byte; both places past the end. -/
theorem witness_MulRule :
    (7 : Byte).toNat = (7 : Reg).val ∧ 8 ≤ (8 : Byte).toNat ∧ (7 : Byte).toNat < 8 ∧
    (bytesAt 254 [0xA2]).atOpcode .mul ∧ (bytesAt 255 [0xA2]).atOpcode .mul :=
  ⟨by decide, by decide, by decide, ⟨rfl, by decide, rfl⟩, ⟨rfl, by decide, rfl⟩⟩

theorem witness_AddRule :
    (7 : Byte).toNat = (7 : Reg).val ∧ 8 ≤ (8 : Byte).toNat ∧ (7 : Byte).toNat < 8 ∧
    (bytesAt 254 [0xA0]).atOpcode .add ∧ (bytesAt 255 [0xA0]).atOpcode .add :=
  ⟨by decide, by decide, by decide, ⟨rfl, by decide, rfl⟩, ⟨rfl, by decide, rfl⟩⟩

theorem witness_CmpRule :
    (7 : Byte).toNat = (7 : Reg).val ∧ 8 ≤ (8 : Byte).toNat ∧ (7 : Byte).toNat < 8 ∧
    (bytesAt 254 [0xA7]).atOpcode .cmp ∧ (bytesAt 255 [0xA7]).atOpcode .cmp :=
  ⟨by decide, by decide, by decide, ⟨rfl, by decide, rfl⟩, ⟨rfl, by decide, rfl⟩⟩

/-- Equal and unequal operands. -/
theorem witness_CmpUnderEitherParameter :
    (0 : Byte).toNat = (0 : Reg).val ∧ (7 : Byte).toNat = (7 : Reg).val ∧
    State.reset.getReg 0 = State.reset.getReg 1 ∧ State.reset.getReg 0 ≠ State.reset.getReg 7 := by decide

/-- A register other than SP and SP itself; a bad byte; the operand past the end. -/
theorem witness_PushRule :
    Memory.wf State.reset.mem = true ∧ (6 : Byte).toNat = (6 : Reg).val ∧ (6 : Reg) ≠ spIndex ∧
    (7 : Byte).toNat = spIndex.val ∧ 8 ≤ (8 : Byte).toNat ∧ (bytesAt 255 [0x45]).atOpcode .push :=
  ⟨by decide, by decide, by decide, by decide, by decide, rfl, by decide, rfl⟩

theorem witness_PopRule :
    (6 : Byte).toNat = (6 : Reg).val ∧ (6 : Reg) ≠ spIndex ∧ (7 : Byte).toNat = spIndex.val ∧ 8 ≤ (8 : Byte).toNat ∧
    (bytesAt 255 [0x46]).atOpcode .pop :=
  ⟨by decide, by decide, by decide, by decide, rfl, by decide, rfl⟩

/-- The last place a CALL completes, the place of its own fault, and the operand past the end. -/
theorem witness_CallRule :
    Memory.wf (bytesAt 253 [0x50, 1]).mem = true ∧ (bytesAt 253 [0x50, 1]).pc.toNat ≤ 253 ∧
    (6 : Byte).toNat = (6 : Reg).val ∧ (6 : Reg) ≠ spIndex ∧ (7 : Byte).toNat = spIndex.val ∧
    (bytesAt 254 [0x50, 7]).pc = 254 ∧ (7 : Byte).toNat < 8 ∧ 8 ≤ (8 : Byte).toNat ∧ (bytesAt 255 [0x50]).atOpcode .call :=
  ⟨by decide, by decide, by decide, by decide, by decide, rfl, by decide, by decide, rfl, by decide, rfl⟩

theorem witness_RetRule : (bytesAt 255 [0x11]).atOpcode .ret := ⟨rfl, by decide, rfl⟩

theorem witness_JmpRule :
    (7 : Byte).toNat = (7 : Reg).val ∧ 8 ≤ (8 : Byte).toNat ∧ (bytesAt 255 [0x54]).atOpcode .jmp :=
  ⟨by decide, by decide, rfl, by decide, rfl⟩

/-- Taken and not taken. -/
theorem witness_JeqRule :
    (7 : Byte).toNat = (7 : Reg).val ∧ (State.reset.setFl 1).fl[0] = true ∧ State.reset.fl[0] = false ∧
    8 ≤ (8 : Byte).toNat ∧ (bytesAt 255 [0x55]).atOpcode .jeq :=
  ⟨by decide, by decide, by decide, by decide, rfl, by decide, rfl⟩

theorem witness_JneRule :
    (7 : Byte).toNat = (7 : Reg).val ∧ State.reset.fl[0] = false ∧ (State.reset.setFl 1).fl[0] = true ∧
    8 ≤ (8 : Byte).toNat ∧ (bytesAt 255 [0x56]).atOpcode .jne :=
  ⟨by decide, by decide, by decide, by decide, rfl, by decide, rfl⟩

theorem witness_InvalidRegisterRule :
    (Instr.ldi 8 0).operandBytes.head? = some 8 ∧ 8 ≤ (8 : Byte).toNat ∧ (7 : Byte).toNat < 8 ∧
    Instr.mul 7 8 ∈ [Instr.mul 7 8, Instr.add 7 8, Instr.cmp 7 8] ∧ State.reset.rs = .running ∧
    (Instr.cmp 7 7).wf = true := by decide

theorem witness_UnknownOpcodeRule :
    (bytesAt 255 [0xC0]).rs = .running ∧ (bytesAt 255 [0xC0]).pc.toNat < 256 ∧
    ∀ h, Config.standard.opcodes h ≠ (bytesAt 255 [0xC0]).cell (bytesAt 255 [0xC0]).pc.toNat :=
  ⟨rfl, by decide, fun h => by cases h <;> decide⟩

theorem witness_FaultsArePrecise : ∃ t, step State.reset = .next t ∧ t.rs = .faulted := ⟨_, rfl, rfl⟩

/-- One state for each of the seven checks of R165 in their order, and one that passes them all. -/
theorem witness_FirstFailingCheckIsReported :
    (bytesAt 256 []).firstFault Config.standard = some (.outOfBounds 256) ∧
    (bytesAt 255 [0xC0]).firstFault Config.standard = some (.unknownOpcode 0xC0) ∧
    (bytesAt 255 [0x45]).firstFault Config.standard = some (.outOfBounds 256) ∧
    (bytesAt 254 [0xA0, 9]).firstFault Config.standard = some (.outOfBounds 256) ∧
    (bytesAt 253 [0xA0, 9, 10]).firstFault Config.standard = some (.invalidRegister 9) ∧
    (bytesAt 253 [0xA0, 7, 8]).firstFault Config.standard = some (.invalidRegister 8) ∧
    (bytesAt 254 [0x50, 1]).firstFault Config.standard = some (.outOfBounds 256) ∧
    (bytesAt 253 [0x82, 7, 8]).firstFault Config.standard = none ∧ (bytesAt 253 [0x82, 7, 8]).rs = .running := by decide

theorem witness_UnsupportedAluOperationNeverRaised : ∃ t, stepWith Config.standard State.reset = .next t := ⟨_, rfl⟩

/-- Register 6 is neither read nor written by LDI R0; register 0 is written and not read by it. -/
theorem witness_RegisterReadAndWriteTable :
    (∃ t, exec (.ldi 0 5) State.reset = .next t) ∧ writesReg (.ldi 0 5) 6 = false ∧
    readsReg State.reset.e (.ldi 0 5) 6 = false ∧ (Instr.ldi 0 5).wf = true ∧
    readsReg State.reset.e (.ldi 0 5) 0 = false ∧ writesReg (.ldi 0 5) 0 = true :=
  ⟨⟨_, rfl⟩, by decide, by decide, by decide, by decide, by decide⟩

theorem witness_OnlyPushAndCallStore :
    (∃ t, exec (.push 0) State.reset = .next t) ∧ (∃ t, exec .ret State.reset = .next t) ∧
    Instr.ret.handler ≠ .push ∧ Instr.ret.handler ≠ .call ∧ 0xF4 ≠ State.reset.decSp.sp.toNat :=
  ⟨⟨_, rfl⟩, ⟨_, rfl⟩, by decide, by decide, by decide⟩

theorem witness_FlagsAreCmpAndBranchesOnly :
    (∃ t, exec (.jmp 7) State.reset = .next t) ∧ (Instr.jmp 7).handler ≠ .cmp ∧ (Instr.jmp 7).handler ≠ .jeq ∧
    (Instr.jmp 7).handler ≠ .jne ∧ (Instr.cmp 0 7).wf = true ∧ (∃ t, exec (.cmp 0 7) State.reset = .next t) ∧
    (∃ u, exec (.cmp 0 7) (State.reset.setFl 1) = .next u) ∧ (7 : Byte).toNat = (7 : Reg).val :=
  ⟨⟨_, rfl⟩, by decide, by decide, by decide, by decide, ⟨_, rfl⟩, ⟨_, rfl⟩, by decide⟩

theorem witness_OnlyPrnEmits :
    (∃ t, exec .ret State.reset = .next t) ∧ Instr.ret.handler ≠ .prn ∧ (∃ t, exec (.prn 7) State.reset = .next t) ∧
    (7 : Byte).toNat = (7 : Reg).val ∧ ∃ t, step (bytesAt 0 [0x47, 7]) = .next t :=
  ⟨⟨_, rfl⟩, by decide, ⟨_, rfl⟩, by decide, _, rfl⟩

theorem witness_OutputIsNeverRead : ∃ t, step (bytesAt 0 [0x47, 7]) = .next t ∧ t.out = [244] := ⟨_, rfl, rfl⟩

/-- A halt, an instruction that goes on, and one that faults. -/
theorem witness_OnlyHltAndFaultsEndARun :
    (∃ t, exec .hlt State.reset = .next t) ∧ (∃ t, exec (.jmp 7) State.reset = .next t) ∧
    ∃ t, exec (.jmp 8) State.reset = .next t := ⟨⟨_, rfl⟩, ⟨_, rfl⟩, _, rfl⟩

theorem witness_RunStateTransitions :
    (∃ t, step (bytesAt 0 [0x01]) = .next t ∧ t.rs = .halted) ∧ ∃ t, step State.reset = .next t ∧ t.rs = .faulted :=
  ⟨⟨_, rfl, rfl⟩, _, rfl, rfl⟩

theorem witness_BranchesAreComplementary :
    (7 : Byte).toNat = (7 : Reg).val ∧ (∃ t, exec (.jmp 7) State.reset = .next t) ∧ ∀ a b, Instr.jmp 7 ≠ .cmp a b :=
  ⟨by decide, ⟨_, rfl⟩, fun _ _ => Instr.noConfusion⟩

/-- The subroutine that returns at once. -/
theorem witness_CallThenRetReturns :
    Memory.wf (bytesAt 253 [0x50, 1]).mem = true ∧ (bytesAt 253 [0x50, 1]).pc.toNat ≤ 253 ∧ (1 : Byte).toNat < 8 ∧
    ∃ t, exec (.call 1) (bytesAt 253 [0x50, 1]) = .next t ∧ t.sp = (bytesAt 253 [0x50, 1]).sp - 1 :=
  ⟨by decide, by decide, by decide, _, rfl, by decide⟩

theorem witness_PushThenPopMovesTheValue :
    Memory.wf State.reset.mem = true ∧ (0 : Byte).toNat = (0 : Reg).val ∧ (6 : Byte).toNat = (6 : Reg).val ∧
    (0 : Reg) ≠ spIndex ∧ (6 : Reg) ≠ spIndex ∧
    ∃ t u : State, exec (.push 0) State.reset = .next t ∧ u.sp = t.sp ∧ u.cell u.sp.toNat = t.cell t.sp.toNat :=
  ⟨by decide, by decide, by decide, by decide, by decide, _, _, rfl, rfl, rfl⟩

/-- Program P7's PUSH, whose byte falls on the next opcode: HLT's opcode, and a byte that is no opcode. -/
theorem witness_NextFetchSeesThePushedByte :
    Memory.wf (withReg 7 3 (bytesAt 0 [0x45, 0])).mem = true ∧ (withReg 7 3 (bytesAt 0 [0x45, 0])).rs = .running ∧
    (0 : Byte).toNat = (0 : Reg).val ∧ (0 : Reg) ≠ spIndex ∧
    (withReg 7 3 (bytesAt 0 [0x45, 0])).holdsAtPc (encode (.push 0)) ∧
    (withReg 7 3 (bytesAt 0 [0x45, 0])).pc.toNat + 2 = (withReg 7 3 (bytesAt 0 [0x45, 0])).decSp.sp.toNat ∧
    (withReg 0 1 (withReg 7 3 (bytesAt 0 [0x45, 0]))).getReg 0 = Config.standard.opcodes .hlt ∧
    ∀ h, Config.standard.opcodes h ≠ (withReg 7 3 (bytesAt 0 [0x45, 0])).getReg 0 :=
  ⟨by decide, rfl, by decide, by decide, ⟨by decide, by decide⟩, by decide, by decide, fun h => by cases h <;> decide⟩

theorem witness_JumpToItselfNeverEnds :
    (withReg 0 3 (bytesAt 3 [0x54, 0])).rs = .running ∧ (0 : Byte).toNat = (0 : Reg).val ∧
    (withReg 0 3 (bytesAt 3 [0x54, 0])).holdsAtPc (encode (.jmp 0)) ∧
    zext9 ((withReg 0 3 (bytesAt 3 [0x54, 0])).getReg 0) = (withReg 0 3 (bytesAt 3 [0x54, 0])).pc :=
  ⟨rfl, by decide, ⟨by decide, by decide⟩, by decide⟩

theorem reset_inv : State.reset.Inv := ⟨by decide, by decide, by decide, by decide⟩

theorem witness_StepKeepsTheInvariant :
    State.reset.Inv ∧ (∃ t, step State.reset = .next t) ∧ ∃ t, stepWith Config.standard State.reset = .next t :=
  ⟨reset_inv, ⟨_, rfl⟩, _, rfl⟩

theorem witness_EveryReachableStateMeetsTheInvariant :
    ∃ s, launchWith Config.standard [0x01] = .ok s ∧ ∃ t, Reaches Config.standard s t ∧ t.rs = .halted :=
  ⟨_, rfl, _, .step (.refl _) rfl, rfl⟩

/-- A run that halts and a run that faults. -/
theorem witness_EndOfARunShowsWhatEndedIt :
    (∃ s t, launchWith Config.standard [0x01] = .ok s ∧ Reaches Config.standard s t ∧ t.rs = .halted) ∧
    ∃ s t, launchWith Config.standard [] = .ok s ∧ Reaches Config.standard s t ∧ t.rs = .faulted :=
  ⟨⟨_, _, rfl, .step (.refl _) rfl, rfl⟩, _, _, rfl, .step (.refl _) rfl, rfl⟩

end Sys2Proof.Machine
end

section
/-! PROOFS. Which register an instruction reads and writes (O38, `spec/10_state.md` R23), and what it does to the output
(O41, R37). Both are read off `ExecResult`, so they hold under every configuration. -/

namespace Sys2Proof.Machine

variable {c : Config} {s t : State} {i : Instr} {a : Byte} {r q : Reg}

/-! Registers: two writes in a row, and the stack pointer's updates after a write to another register. -/

theorem State.setReg_setReg_self (s : State) (r : Reg) (v w : Byte) : (s.setReg r v).setReg r w = s.setReg r w := by
  simp [State.setReg]

theorem State.setReg_comm (s : State) (h : r ≠ q) (v w : Byte) :
    (s.setReg r v).setReg q w = (s.setReg q w).setReg r v := by
  simp only [State.setReg]
  congr 1
  exact Vector.set_comm _ _ (Fin.val_ne_of_ne h)

theorem State.sp_setReg_of_ne (s : State) (h : r ≠ spIndex) (v : Byte) : (s.setReg r v).sp = s.sp :=
  s.getReg_setReg_of_ne h.symm v

theorem State.decSp_setReg (s : State) (h : r ≠ spIndex) (v : Byte) : (s.setReg r v).decSp = s.decSp.setReg r v := by
  rw [State.decSp, s.sp_setReg_of_ne h, s.setReg_comm h, ← State.decSp]

theorem State.incSp_setReg (s : State) (h : r ≠ spIndex) (v : Byte) : (s.setReg r v).incSp = s.incSp.setReg r v := by
  rw [State.incSp, s.sp_setReg_of_ne h, s.setReg_comm h, ← State.incSp]

/-- An operand byte that is the index of `q` names `q` and no other register. -/
theorem names_of_eq (h : a.toNat = q.val) (r : Reg) : names a r = decide (r = q) := by
  rw [Bool.eq_iff_iff, decide_eq_true_iff, Fin.ext_iff, names, h, beq_iff_eq, eq_comm]

/-! From the list of results back to `execWith` and `exec`. -/

/-- The converse of `execWith_next`: an instruction has no other result than its listed one. -/
theorem ExecResult.execWith_eq (h : ExecResult c s i t) : execWith c i s = .next t := by
  cases h with
  | invalidRegister h _ => exact (execWith_bad h).2 s
  | returnAddress h hp => exact execCall_past_end h hp
  | hlt => rfl
  | ldi h => exact execLdi_eq h
  | prn h => exact execPrn_eq h
  | mul ha hb => exact execMul_eq ha hb
  | add ha hb => exact execAdd_eq ha hb
  | cmp ha hb => exact execCmpWith_eq _ ha hb
  | push h => exact execPush_eq h
  | pop h => exact execPop_eq h
  | call h hp => exact execCall_eq h hp
  | ret => exact execRet_eq s
  | jmp h => exact execJmp_eq h
  | jeqTaken h he => exact (branch_eq s.e h).trans (by simp [he])
  | jeqNot h he => exact (branch_eq s.e h).trans (by simp [he])
  | jneTaken h he => exact (branch_eq (!s.e) h).trans (by simp [he])
  | jneNot h he => exact (branch_eq (!s.e) h).trans (by simp [he])

theorem ExecResult.exec_eq (h : ExecResult Config.standard s i t) : exec i s = .next t :=
  (execWith_standard i s).symm.trans h.execWith_eq

/-! The register table (R23). -/

/-- A register outside the column Writes keeps its value. -/
theorem ExecResult.getReg_of_not_writes (h : ExecResult c s i t) (hw : writesReg i r = false) :
    t.getReg r = s.getReg r := by
  cases h with
  | invalidRegister | returnAddress | hlt | prn | cmp | jmp | jeqTaken | jeqNot | jneTaken | jneNot => rfl
  | ldi h | mul h _ | add h _ =>
    exact s.getReg_setReg_of_ne (by simpa [writesReg, names_of_eq h] using hw) _
  | push | call | ret =>
    exact s.getReg_setReg_of_ne (by simpa [writesReg] using hw) _
  | @pop a q h =>
    obtain ⟨hq, hsp⟩ : r ≠ q ∧ r ≠ spIndex := by simpa [writesReg, names_of_eq h] using hw
    exact (State.getReg_setReg_of_ne _ hsp _).trans (s.getReg_setReg_of_ne hq _)

/-- A register outside both columns can be set before or after the instruction. -/
theorem ExecResult.setReg_of_not_reads (v : Byte) (h : ExecResult c s i t) (hr : readsReg s.e i r = false)
    (hw : writesReg i r = false) : ExecResult c (s.setReg r v) i (t.setReg r v) := by
  cases h with
  | invalidRegister h hv => exact .invalidRegister h hv
  | returnAddress h hp => exact .returnAddress h hp
  | hlt => exact .hlt
  | jeqNot h he => exact .jeqNot h he
  | jneNot h he => exact .jneNot h he
  | @ldi a b q h =>
    have hq : r ≠ q := by simpa [writesReg, names_of_eq h] using hw
    have key := ExecResult.ldi (c := c) (s := s.setReg r v) (b := b) h
    rwa [s.setReg_comm hq] at key
  | @prn a q h =>
    have hq : q ≠ r := by simpa [readsReg, names_of_eq h, eq_comm] using hr
    have key := ExecResult.prn (c := c) (s := s.setReg r v) h
    rwa [s.getReg_setReg_of_ne hq] at key
  | @jmp a q h =>
    have hq : q ≠ r := by simpa [readsReg, names_of_eq h, eq_comm] using hr
    have key := ExecResult.jmp (c := c) (s := s.setReg r v) h
    rwa [s.getReg_setReg_of_ne hq] at key
  | @jeqTaken a q h he =>
    have hq : q ≠ r := by simpa [readsReg, he, names_of_eq h, eq_comm] using hr
    have key := ExecResult.jeqTaken (c := c) (s := s.setReg r v) h he
    rwa [s.getReg_setReg_of_ne hq] at key
  | @jneTaken a q h he =>
    have hq : q ≠ r := by simpa [readsReg, he, names_of_eq h, eq_comm] using hr
    have key := ExecResult.jneTaken (c := c) (s := s.setReg r v) h he
    rwa [s.getReg_setReg_of_ne hq] at key
  | @mul a b q p ha hb =>
    obtain ⟨hq, hp⟩ : r ≠ q ∧ r ≠ p := by simpa [readsReg, names_of_eq ha, names_of_eq hb] using hr
    have key := ExecResult.mul (c := c) (s := s.setReg r v) ha hb
    rwa [s.getReg_setReg_of_ne hq.symm, s.getReg_setReg_of_ne hp.symm, s.setReg_comm hq] at key
  | @add a b q p ha hb =>
    obtain ⟨hq, hp⟩ : r ≠ q ∧ r ≠ p := by simpa [readsReg, names_of_eq ha, names_of_eq hb] using hr
    have key := ExecResult.add (c := c) (s := s.setReg r v) ha hb
    rwa [s.getReg_setReg_of_ne hq.symm, s.getReg_setReg_of_ne hp.symm, s.setReg_comm hq] at key
  | @cmp a b q p ha hb =>
    obtain ⟨hq, hp⟩ : r ≠ q ∧ r ≠ p := by simpa [readsReg, names_of_eq ha, names_of_eq hb] using hr
    have key := ExecResult.cmp (c := c) (s := s.setReg r v) ha hb
    rwa [s.getReg_setReg_of_ne hq.symm, s.getReg_setReg_of_ne hp.symm] at key
  | @push a q h =>
    obtain ⟨hsp, hq⟩ : r ≠ spIndex ∧ r ≠ q := by simpa [readsReg, names_of_eq h] using hr
    have key := ExecResult.push (c := c) (s := s.setReg r v) h
    rwa [s.decSp_setReg hsp, State.sp_setReg_of_ne _ hsp, State.getReg_setReg_of_ne _ hq.symm] at key
  | @call a q h hpc =>
    obtain ⟨hsp, hq⟩ : r ≠ spIndex ∧ r ≠ q := by simpa [readsReg, names_of_eq h] using hr
    have key := ExecResult.call (c := c) (s := s.setReg r v) h hpc
    rwa [s.decSp_setReg hsp, State.sp_setReg_of_ne _ hsp, State.getReg_setReg_of_ne _ hq.symm] at key
  | @pop a q h =>
    obtain ⟨hq, hsp⟩ : r ≠ q ∧ r ≠ spIndex := by simpa [writesReg, names_of_eq h] using hw
    have key := ExecResult.pop (c := c) (s := s.setReg r v) h
    rwa [s.sp_setReg_of_ne hsp, s.setReg_comm hq, State.incSp_setReg _ hsp] at key
  | ret =>
    have hsp : r ≠ spIndex := by simpa [readsReg] using hr
    have key := ExecResult.ret (c := c) (s := s.setReg r v)
    rwa [s.sp_setReg_of_ne hsp, s.incSp_setReg hsp] at key

/-- Only LDI and POP write a register they do not read. -/
theorem eq_ldi_or_pop_of_writes_unread {e : Bool} (hr : readsReg e i r = false) (hw : writesReg i r = true) :
    ∃ a, names a r = true ∧ ((∃ b, i = .ldi a b) ∨ (i = .pop a ∧ r ≠ spIndex)) := by
  cases i with
  | ldi a b => exact ⟨a, hw, .inl ⟨b, rfl⟩⟩
  | pop a =>
    have hsp : r ≠ spIndex := by simpa [readsReg] using hr
    exact ⟨a, by simpa [writesReg, hsp] using hw, .inr ⟨rfl, hsp⟩⟩
  | hlt | prn | cmp | jmp | jeq | jne => cases hw
  | mul | add | push | call | ret => simp_all [readsReg, writesReg]

/-- The old value of a register that an instruction writes and does not read is lost. -/
theorem execWith_setReg_of_overwritten (v : Byte) {e : Bool} (hr : readsReg e i r = false)
    (hw : writesReg i r = true) : execWith c i (s.setReg r v) = execWith c i s := by
  obtain ⟨a, hn, hi⟩ := eq_ldi_or_pop_of_writes_unread hr hw
  have h : a.toNat = r.val := by simpa [names] using hn
  obtain ⟨b, rfl⟩ | ⟨rfl, hsp⟩ := hi
  · have key := execLdi_eq (b := b) (s := s.setReg r v) h
    rw [s.setReg_setReg_self] at key
    exact key.trans (execLdi_eq h).symm
  · have key := execPop_eq (s := s.setReg r v) h
    rw [s.setReg_setReg_self, s.sp_setReg_of_ne hsp] at key
    exact key.trans (execPop_eq h).symm

/-- Settles O38: each clause is read off the results an instruction can have. -/
theorem registerReadAndWriteTable : Obligations.RegisterReadAndWriteTable := by
  unfold Obligations.RegisterReadAndWriteTable
  refine ⟨fun i s t r h hw => ?_, fun i s t r v h hr hw => ?_, fun i s r v _ hr hw => ?_⟩
  · exact (exec_next h).getReg_of_not_writes hw
  · exact ((exec_next h).setReg_of_not_reads v hr hw).exec_eq
  · rw [← execWith_standard, ← execWith_standard, execWith_setReg_of_overwritten v hr hw]

/-! The output (R37). -/

/-- An instruction leaves the output alone, unless it is PRN of a register and appends that register's value. -/
theorem ExecResult.out_cases (h : ExecResult c s i t) :
    t.out = s.out ∨ ∃ a r, i = .prn a ∧ a.toNat = r.val ∧ t.out = s.out ++ [s.getReg r] := by
  cases h with
  | prn h => exact .inr ⟨_, _, rfl, h, rfl⟩
  | _ => exact .inl rfl

/-- Settles O41: an instruction of a step changes the output only as PRN, and a fault of the fetch leaves it alone. -/
theorem onlyPrnEmits : Obligations.OnlyPrnEmits := by
  unfold Obligations.OnlyPrnEmits
  refine ⟨rfl, fun i s t h hi => ?_, fun a s t r h ha => ?_, fun s t h => ?_⟩
  · obtain hout | ⟨a, r, rfl, -, -⟩ := (exec_next h).out_cases
    · exact hout
    · exact absurd rfl hi
  · cases (execPrn_eq ha).symm.trans h
    rfl
  · obtain ⟨-, ⟨i, -, hx⟩ | ⟨r, -, rfl⟩⟩ := runStep_next h
    · obtain hout | ⟨a, r, -, -, hout⟩ := (exec_next hx).out_cases
      · exact .inl hout
      · exact .inr ⟨_, hout⟩
    · exact .inl rfl

end Sys2Proof.Machine
end

section
/-! PROOFS. The bounds-checked memory operations: what a read answers (O7, `spec/20_memory.md` R51) and what a write
changes and leaves alone (O8, R52). -/

namespace Sys2Proof.Machine

/-- Settles O8: a write at 256 or more raises; one below answers the state with `Memory.write` as its memory, whose
reads and canonical form the memory laws give. -/
theorem memWriteIsBoundsChecked : Obligations.MemWriteIsBoundsChecked := by
  unfold Obligations.MemWriteIsBoundsChecked
  refine fun s addr v => ⟨memWrite_error v, fun h hm => ⟨_, memWrite_ok v h, ?written, ?frame, rfl, ?canonical⟩⟩
  case written => exact Memory.read_write_self addr.toNat v hm
  case frame => exact fun x hx => Memory.read_write_of_ne s.mem v hx
  case canonical => exact Memory.wf_write addr.toNat v hm h

/-- Settles O7: the two sides of the bounds check of a read. -/
theorem memReadIsBoundsChecked : Obligations.MemReadIsBoundsChecked := by
  unfold Obligations.MemReadIsBoundsChecked
  exact fun s addr => ⟨memRead_error, memRead_ok⟩

end Sys2Proof.Machine
end

section
/-! PROOFS. The parts of the engine cycle: the dispatcher (O4, `spec/40_engine_cycle.md` R104), the register file
(O10, R107) and the ALU (O11, R105). -/

namespace Sys2Proof.Machine

/-! The dispatcher (R104). -/

/-- A legal opcode map gives no byte to two handlers (R76). -/
theorem opcode_injective {m : OpcodeMap} (hm : m.valid = true) : Function.Injective m := by
  have hnodup : (Handler.all.map m).Nodup := of_decide_eq_true (Bool.and_eq_true_iff.1 hm).1
  exact fun h k heq => List.inj_on_of_nodup_map hnodup (mem_handlers h) (mem_handlers k) heq

/-- Under a legal opcode map a handler's opcode dispatches to that handler. -/
theorem dispatch_opcode {m : OpcodeMap} (hm : m.valid = true) (h : Handler) : dispatch m (m h) = some h := by
  cases hd : dispatch m (m h) with
  | some k => exact congrArg some (opcode_injective hm (dispatch_eq_some hd))
  | none =>
    have hne : ¬m h = m h := by simpa using List.find?_eq_none.1 hd h (mem_handlers h)
    exact absurd rfl hne

/-- Settles O4: injectivity of a legal map for the thirteen opcodes; any byte that dispatches is one of them. -/
theorem dispatcherMapsThirteenValues : Obligations.DispatcherMapsThirteenValues := by
  unfold Obligations.DispatcherMapsThirteenValues
  exact ⟨⟨rfl, by decide, mem_handlers⟩, fun m hm => ⟨dispatch_opcode hm, fun op => dispatch_eq_none⟩⟩

/-! The register file (R107). -/

/-- After reset the stack pointer holds `SP_RESET` and every other register `GPR_RESET` (R39). -/
theorem getReg_resetWith (c : Config) (r : Reg) :
    (State.resetWith c).getReg r = if r = spIndex then c.spReset else gprReset := by
  fin_cases r <;> rfl

/-- Settles O10: a register write, the two sides of the index check, and the eight reset values. -/
theorem registerFileContract : Obligations.RegisterFileContract := by
  unfold Obligations.RegisterFileContract
  refine ⟨fun s r v => ⟨?written, ?frame, rfl⟩, fun a r => checkReg_of_eq, fun a => checkReg_error, getReg_resetWith⟩
  case written => exact s.getReg_setReg_self r v
  case frame => exact fun i hi => s.getReg_setReg_of_ne hi v

/-! The ALU (R105). -/

/-- What a write of an exact result does: the register holds it modulo 256, nothing else changes. -/
theorem setReg_ofNat_contract (s : State) (d : Reg) (n : Nat) :
    ((s.setReg d (BitVec.ofNat 8 n)).getReg d).toNat = n % 256 ∧
    (∀ i, i ≠ d → (s.setReg d (BitVec.ofNat 8 n)).getReg i = s.getReg i) ∧
    s.setReg d (BitVec.ofNat 8 n) = { s with regs := (s.setReg d (BitVec.ofNat 8 n)).regs } := by
  refine ⟨?_, fun i hi => s.getReg_setReg_of_ne hi _, rfl⟩
  rw [s.getReg_setReg_self]
  exact BitVec.toNat_ofNat n 8

/-- CMP writes no register, whether it compares or faults. -/
theorem regs_of_exec_cmp {s t : State} {a b : Byte} (h : exec (.cmp a b) s = .next t) : t.regs = s.regs :=
  State.regs_ext fun _ => (exec_next h).getReg_of_not_writes rfl

/-- Settles O11: both operations are one register write of an exact result, and the handlers are that with `pc` moved
on. -/
theorem aluContract : Obligations.AluContract := by
  unfold Obligations.AluContract
  refine ⟨fun s d r => ⟨?add, ?mul⟩, fun s a b d r ha hb => ⟨?addHandler, ?mulHandler⟩, fun s t a b => regs_of_exec_cmp⟩
  case add => exact ⟨_, aluApply_add s d r, setReg_ofNat_contract s d _⟩
  case mul => exact ⟨_, aluApply_mul s d r, setReg_ofNat_contract s d _⟩
  case addHandler => exact ⟨_, aluApply_add s d r, execAdd_eq ha hb⟩
  case mulHandler => exact ⟨_, aluApply_mul s d r, execMul_eq ha hb⟩

end Sys2Proof.Machine
end

section
/-! PROOFS. LDI and PRN (O19, O20, `spec/41_system_and_data.md` R111 and R112), and for every instruction the step that
finds an operand byte past the end of memory and the register check that fails. -/

namespace Sys2Proof.Machine

variable {s : State} {a v : Byte} {h : Handler}

/-! An operand byte past the end of memory (R98): the first address outside memory is always 256. -/

theorem pc_add_eq_256 {k : Nat} (hk : k ≤ 3) (hp : s.pc.toNat + k = 256) : s.pc + BitVec.ofNat 9 k = 256 :=
  BitVec.eq_of_toNat_eq ((pc_add_toNat hk (by omega)).trans hp)

/-- The opcode byte is in memory and not every operand byte is: the fetch reports the first address past the end. -/
theorem fetch_operands_past_end {m : OpcodeMap} (hd : dispatch m (s.cell s.pc.toNat) = some h)
    (hpc : s.pc.toNat < 256) (hend : 256 ≤ s.pc.toNat + h.operandCount) :
    s.fetch m = .error (.outOfBounds 256) := by
  have hle := operandCount_le h
  rw [fetch_eq_cells, if_pos hpc, hd]
  dsimp only
  rw [if_neg (by omega)]
  by_cases h1 : s.pc.toNat + 1 < 256
  · rw [if_pos h1, if_neg (by omega), if_neg (by omega)]
    exact congrArg (Except.error ∘ Raise.outOfBounds) (pc_add_eq_256 (k := 2) (by omega) (by omega))
  · rw [if_neg h1]
    exact congrArg (Except.error ∘ Raise.outOfBounds) (pc_add_eq_256 (k := 1) (by omega) (by omega))

/-- The step of any instruction whose operand bytes do not all fit behind its opcode. -/
theorem step_operands_past_end (hop : s.atOpcode h) (hend : 256 ≤ s.pc.toNat + h.operandCount) :
    step s = .next (s.raise (.outOfBounds 256)) := by
  obtain ⟨hrun, hpc, hcell⟩ := hop
  have hd : dispatch Config.standard.opcodes (s.cell s.pc.toNat) = some h := hcell ▸ dispatch_standard h
  rw [step, runStep_running hrun, fetch_operands_past_end hd hpc hend]

/-! A failing register check (R99). -/

theorem exec_bad (i : Instr) (hb : badRegister i = some v) (s : State) :
    exec i s = .next (s.raise (.invalidRegister v)) :=
  (execWith_standard i s).symm.trans ((execWith_bad hb).2 s)

/-- What `badRegister` answers where a format has one register operand and it names none. -/
theorem isReg_ite_of_ge (ha : 8 ≤ a.toNat) (o : Option Byte) : (if Byte.isReg a then o else some a) = some a := by
  rw [isReg_false ha, if_neg Bool.false_ne_true]

/-! The two rules. -/

/-- Settles O19: LDI is one register write and an advance; its faults are those of any instruction with two operand
bytes and `a` in a register position. -/
theorem ldiRule : Obligations.LdiRule := by
  unfold Obligations.LdiRule
  refine ⟨fun _ _ => rfl, fun s a b r ha => ⟨_, execLdi_eq ha, ?written, ?frame, rfl⟩, fun s a b ha => ?badRegister,
    fun s hop hpc => ?pastEnd⟩
  case written => exact s.getReg_setReg_self r b
  case frame => exact fun i hi => s.getReg_setReg_of_ne hi b
  case badRegister => exact exec_bad (.ldi a b) (isReg_ite_of_ge ha none) s
  case pastEnd => exact step_operands_past_end hop (by rcases hpc with hpc | hpc <;> rw [hpc] <;> decide)

/-- Settles O20: PRN appends the register's value and advances; its faults are those of any instruction with one operand
byte, in a register position. -/
theorem prnRule : Obligations.PrnRule := by
  unfold Obligations.PrnRule
  refine ⟨fun _ => rfl, fun s a r ha => execPrn_eq ha, fun s a ha => ?badRegister, fun s hop hpc => ?pastEnd⟩
  case badRegister => exact exec_bad (.prn a) (isReg_ite_of_ge ha none) s
  case pastEnd => exact step_operands_past_end hop (by rw [hpc]; decide)

end Sys2Proof.Machine
end

section
/-! PROOFS. MUL and ADD (O21, O22, `spec/42_arithmetic.md` R120 and R121): the shared write of an exact result, and the
register check of two operands that fails at the second. -/

namespace Sys2Proof.Machine

/-- What an arithmetic instruction with the exact result `n` answers: register `r` holds `n` modulo 256, `pc` is moved
on by 3, nothing else changes. -/
theorem setReg_ofNat_advance_contract (s : State) (r : Reg) (n : Nat) :
    (((s.setReg r (BitVec.ofNat 8 n)).advance 3).getReg r).toNat = n % 256 ∧
    (∀ i, i ≠ r → ((s.setReg r (BitVec.ofNat 8 n)).advance 3).getReg i = s.getReg i) ∧
    (s.setReg r (BitVec.ofNat 8 n)).advance 3 =
      { s with regs := ((s.setReg r (BitVec.ofNat 8 n)).advance 3).regs, pc := s.pc + 3 } := by
  obtain ⟨hwritten, hframe, -⟩ := setReg_ofNat_contract s r n
  simp only [State.getReg_advance]
  exact ⟨hwritten, hframe, rfl⟩

/-- What `badRegister` answers for two register operands of which only the second names none. -/
theorem isReg_ite_of_lt_of_ge {a b : Byte} (ha : a.toNat < 8) (hb : 8 ≤ b.toNat) :
    (if Byte.isReg a then (if Byte.isReg b then none else some b) else some a) = some b := by
  rw [if_pos ((isReg_iff a).2 ha), isReg_ite_of_ge hb]

/-- The step of an instruction with two operand bytes whose opcode is in one of the last two cells. -/
theorem step_two_operands_past_end {s : State} {h : Handler} (hop : s.atOpcode h) (hcount : h.operandCount = 2)
    (hpc : s.pc = 254 ∨ s.pc = 255) : step s = .next (s.raise (.outOfBounds 256)) :=
  step_operands_past_end hop (by rcases hpc with hpc | hpc <;> rw [hpc, hcount] <;> decide)

/-- Settles O21: MUL is one write of the exact product and an advance; its faults are those of any instruction with two
register operands. -/
theorem mulRule : Obligations.MulRule := by
  unfold Obligations.MulRule
  refine ⟨fun _ _ => rfl, fun s a b r q ha hb => ⟨_, execMul_eq ha hb, setReg_ofNat_advance_contract s r _⟩,
    fun s a b ha => ?badFirst, fun s a b ha hb => ?badSecond, fun s hop hpc => ?pastEnd⟩
  case badFirst => exact exec_bad (.mul a b) (isReg_ite_of_ge ha _) s
  case badSecond => exact exec_bad (.mul a b) (isReg_ite_of_lt_of_ge ha hb) s
  case pastEnd => exact step_two_operands_past_end hop rfl hpc

/-- Settles O22: ADD is one write of the exact sum and an advance; its faults are those of any instruction with two
register operands. -/
theorem addRule : Obligations.AddRule := by
  unfold Obligations.AddRule
  refine ⟨fun _ _ => rfl, fun s a b r q ha hb => ⟨_, execAdd_eq ha hb, setReg_ofNat_advance_contract s r _⟩,
    fun s a b ha => ?badFirst, fun s a b ha hb => ?badSecond, fun s hop hpc => ?pastEnd⟩
  case badFirst => exact exec_bad (.add a b) (isReg_ite_of_ge ha _) s
  case badSecond => exact exec_bad (.add a b) (isReg_ite_of_lt_of_ge ha hb) s
  case pastEnd => exact step_two_operands_past_end hop rfl hpc

end Sys2Proof.Machine
end

section
/-! PROOFS. RET, JMP, JEQ and JNE (O28 to O31, O45, `spec/44_control_transfer.md` R142 to R147): the step at an opcode
with no operand byte and with one, what a conditional jump does on either side, and what keeps the flags. -/

namespace Sys2Proof.Machine

variable {c : Config} {s t : State} {i : Instr} {h : Handler} {a : Byte} {r : Reg}

/-! The step at an opcode with no operand byte, and at one with one in the last cell (R97, R98). -/

/-- An instruction that is its opcode byte alone is fetched at every address of memory. -/
theorem step_of_no_operands (hop : s.atOpcode h) (hcount : h.operandCount = 0) : step s = exec (h.instr 0 0) s := by
  obtain ⟨hrun, hpc, hcell⟩ := hop
  have hd : dispatch Config.standard.opcodes (s.cell s.pc.toNat) = some h := hcell ▸ dispatch_standard h
  have hfetch : s.fetch Config.standard.opcodes = .ok (h.instr 0 0) := by
    rw [fetch_eq_cells, if_pos hpc, hd]
    exact if_pos hcount
  rw [step, runStep_running hrun, hfetch]

/-- The step of an instruction with one operand byte whose opcode is in the last cell. -/
theorem step_one_operand_past_end (hop : s.atOpcode h) (hcount : h.operandCount = 1) (hpc : s.pc = 255) :
    step s = .next (s.raise (.outOfBounds 256)) :=
  step_operands_past_end hop (by rw [hpc, hcount]; decide)

/-! The two rules of unconditional transfers. -/

/-- Settles O28: RET is the pop's increment of SP and a jump to the popped byte; it has no operand byte to miss. -/
theorem retRule : Obligations.RetRule := by
  unfold Obligations.RetRule
  refine ⟨rfl, fun s => ⟨_, execRet_eq s, zext9_toNat _, ?sp, ?frame, rfl⟩, fun s hop => step_of_no_operands hop rfl⟩
  case sp =>
    rw [State.sp_jumpTo, State.sp_incSp]
    exact BitVec.toNat_add s.sp 1
  case frame => exact fun i hi => s.getReg_setReg_of_ne hi _

/-- Settles O29: JMP is a jump to the register's value; its faults are those of any instruction with one operand byte,
in a register position. -/
theorem jmpRule : Obligations.JmpRule := by
  unfold Obligations.JmpRule
  refine ⟨fun _ => rfl, fun s a r ha => ⟨_, execJmp_eq ha, zext9_toNat _, rfl⟩, fun s a ha => ?badRegister,
    fun s hop => step_one_operand_past_end hop rfl⟩
  case badRegister => exact exec_bad (.jmp a) (isReg_ite_of_ge ha none) s

/-! Conditional jumps (R144, R145): both are `State.branch`, JEQ on E and JNE on its negation. -/

/-- A conditional jump goes to the register's value or on to `pc + 2`, and changes nothing but `pc`. -/
theorem branch_contract (s : State) (taken : Bool) (ha : a.toNat = r.val) :
    ∃ t, s.branch taken a = .next t ∧ (taken = true → t.pc = zext9 (s.getReg r)) ∧
      (taken = false → t.pc = s.pc + 2) ∧ t = { s with pc := t.pc } := by
  refine ⟨_, branch_eq taken ha, ?_⟩
  cases taken with
  | true => exact ⟨fun _ => rfl, nofun, rfl⟩
  | false => exact ⟨nofun, fun _ => rfl, rfl⟩

theorem exec_jeq_eq_branch (a : Byte) (s : State) : exec (.jeq a) s = s.branch s.e a := rfl

theorem exec_jne_eq_branch (a : Byte) (s : State) : exec (.jne a) s = s.branch (!s.e) a := rfl

theorem toNat_of_eq_zext9 {pc : Addr} {v : Byte} (hpc : pc = zext9 v) : pc.toNat = v.toNat := by
  rw [hpc, zext9_toNat]

/-- Settles O30: JEQ branches on E; its faults do not depend on E. -/
theorem jeqRule : Obligations.JeqRule := by
  unfold Obligations.JeqRule
  refine ⟨fun _ => rfl, fun s a r ha => ?completes, fun s a ha => ?badRegister,
    fun s hop => step_one_operand_past_end hop rfl⟩
  case completes =>
    obtain ⟨t, ht, htaken, hnot, hframe⟩ := branch_contract s s.e ha
    exact ⟨t, (exec_jeq_eq_branch a s).trans ht, fun he => toNat_of_eq_zext9 (htaken he), hnot, hframe⟩
  case badRegister => exact exec_bad (.jeq a) (isReg_ite_of_ge ha none) s

/-- Settles O31: JNE branches on the negation of E; its faults do not depend on E. -/
theorem jneRule : Obligations.JneRule := by
  unfold Obligations.JneRule
  refine ⟨fun _ => rfl, fun s a r ha => ?completes, fun s a ha => ?badRegister,
    fun s hop => step_one_operand_past_end hop rfl⟩
  case completes =>
    obtain ⟨t, ht, htaken, hnot, hframe⟩ := branch_contract s (!s.e) ha
    exact ⟨t, (exec_jne_eq_branch a s).trans ht, fun he => toNat_of_eq_zext9 (htaken (congrArg not he)),
      fun he => hnot (congrArg not he), hframe⟩
  case badRegister => exact exec_bad (.jne a) (isReg_ite_of_ge ha none) s

/-! The pair of branches (R147). -/

/-- No instruction but CMP writes the flags, whether it completes or faults. -/
theorem ExecResult.fl_of_ne_cmp (hres : ExecResult c s i t) (hi : ∀ a b, i ≠ .cmp a b) : t.fl = s.fl := by
  cases hres with
  | cmp => exact absurd rfl (hi _ _)
  | _ => rfl

/-- Settles O45: JEQ and JNE branch on E and on its negation, so the value of E says which is taken; E is a bit of the
flags, which only CMP writes. -/
theorem branchesAreComplementary : Obligations.BranchesAreComplementary := by
  unfold Obligations.BranchesAreComplementary
  refine ⟨fun s a r ha => ?_, fun i s t hex hi => congrArg flagE ((exec_next hex).fl_of_ne_cmp hi)⟩
  obtain ⟨t, ht, htTaken, htNot, -⟩ := branch_contract s s.e ha
  obtain ⟨u, hu, huTaken, huNot, -⟩ := branch_contract s (!s.e) ha
  refine ⟨t, u, (exec_jeq_eq_branch a s).trans ht, (exec_jne_eq_branch a s).trans hu, ?_⟩
  cases he : s.e with
  | true => exact .inl ⟨htTaken he, huNot (congrArg not he), rfl⟩
  | false => exact .inr ⟨htNot he, huTaken (congrArg not he), rfl⟩

end Sys2Proof.Machine
end

section
/-! PROOFS. Faults (O32, O33, O35, `spec/60_exceptions.md` R162, R164 and R167): which instructions fail the register
check, and that a step ends FAULTED only by fault entry from the state it began in. -/

namespace Sys2Proof.Machine

variable {c : Config} {s t : State} {i : Instr} {a b : Byte}

/-! Which instructions fail the register check (R99). -/

/-- The first operand byte is in a register position in every format that has one. -/
theorem badRegister_first (hhead : i.operandBytes.head? = some a) (ha : 8 ≤ a.toNat) : badRegister i = some a := by
  cases i with
  | hlt | ret => cases hhead
  | ldi | prn | mul | add | push | pop | call | cmp | jmp | jeq | jne =>
    cases hhead
    exact isReg_ite_of_ge ha _

/-- The second operand byte of MUL, ADD and CMP is checked once the first names a register. -/
theorem badRegister_second (ha : a.toNat < 8) (hb : 8 ≤ b.toNat)
    (hi : i ∈ [Instr.mul a b, Instr.add a b, Instr.cmp a b]) : badRegister i = some b := by
  have hcheck := isReg_ite_of_lt_of_ge ha hb
  simp only [List.mem_cons, List.not_mem_nil, or_false] at hi
  obtain rfl | rfl | rfl := hi <;> exact hcheck

/-! Fault entry (R166). -/

/-- The record of a fault tells its kind. -/
theorem kind_eq_of_raise_eq {r r' : Raise} (h : s.raise r = s.raise r') : r.kind = r'.kind :=
  congrArg FaultRecord.kind (Option.some.inj (congrArg State.faultRecord h))

/-- An instruction of an engine that is not yet FAULTED ends FAULTED only by a failing register check or by CALL's
return address past the end of memory. -/
theorem ExecResult.eq_raise_of_faulted (h : ExecResult c s i t) (hs : s.rs ≠ .faulted) (ht : t.rs = .faulted) :
    (∃ v, badRegister i = some v ∧ t = s.raise (.invalidRegister v)) ∨ t = s.raise (.outOfBounds (s.pc + 2)) := by
  cases h with
  | invalidRegister hbad => exact .inl ⟨_, hbad, rfl⟩
  | returnAddress => exact .inr rfl
  | hlt => cases ht
  | _ => exact absurd ht hs

/-- A step that ends FAULTED is fault entry from the state it began in. -/
theorem step_eq_raise_of_faulted (h : step s = .next t) (ht : t.rs = .faulted) : ∃ r, t = s.raise r := by
  obtain ⟨hrun, ⟨i, -, hx⟩ | ⟨r, -, rfl⟩⟩ := runStep_next h
  · have hs : s.rs ≠ .faulted := by simp [hrun]
    obtain ⟨v, -, rfl⟩ | rfl := (exec_next hx).eq_raise_of_faulted hs ht
    · exact ⟨_, rfl⟩
    · exact ⟨_, rfl⟩
  · exact ⟨r, rfl⟩

/-- A byte at `pc` that is no opcode fails the fetch at its dispatch. -/
theorem fetch_unknown_opcode {m : OpcodeMap} (hpc : s.pc.toNat < 256) (hop : ∀ h, m h ≠ s.cell s.pc.toNat) :
    s.fetch m = .error (.unknownOpcode (s.cell s.pc.toNat)) := by
  rw [fetch_eq_cells, if_pos hpc, dispatch_eq_none hop]

/-! The three rules. -/

/-- Settles O32: the two positions of the register check, and, where no byte fails it, the only other fault of an
instruction is of another kind. -/
theorem invalidRegisterRule : Obligations.InvalidRegisterRule := by
  unfold Obligations.InvalidRegisterRule
  refine ⟨fun s i a hhead ha => exec_bad i (badRegister_first hhead ha) s,
    fun s a b ha hb i hi => exec_bad i (badRegister_second ha hb hi) s, fun s i v hrun hwf hraised => ?_⟩
  have hgood : badRegister i = none := (wf_iff_badRegister i).1 hwf
  obtain ⟨w, hbad, -⟩ | hbounds := (exec_next hraised).eq_raise_of_faulted (by simp [hrun]) rfl
  · cases hgood.symm.trans hbad
  · cases kind_eq_of_raise_eq hbounds

/-- Settles O33: the fetch fails at the dispatch, and the step is fault entry for it. -/
theorem unknownOpcodeRule : Obligations.UnknownOpcodeRule := by
  unfold Obligations.UnknownOpcodeRule
  intro s hrun hpc hop
  have hstep : step s = .next (s.raise (.unknownOpcode (s.cell s.pc.toNat))) := by
    rw [step, runStep_running hrun, fetch_unknown_opcode hpc hop]
  exact ⟨_, hstep, rfl, rfl⟩

/-- Settles O35: a step that ends FAULTED is fault entry, which writes the run state and the record only. -/
theorem faultsArePrecise : Obligations.FaultsArePrecise := by
  unfold Obligations.FaultsArePrecise
  intro s t hstep hfaulted
  obtain ⟨r, rfl⟩ := step_eq_raise_of_faulted hstep hfaulted
  exact ⟨rfl, rfl, rfl, rfl, rfl, _, rfl, rfl⟩

end Sys2Proof.Machine
end

section
/-! PROOFS. The encoding (O1, O2, O3, O5, O6, `spec/30_encoding.md` R70 to R81): the operand bytes of an instruction and
the decoder's reading of them are inverse to each other, and a legal map makes the opcode byte so too. -/

namespace Sys2Proof.Machine

variable {m : OpcodeMap} {h : Handler} {i : Instr} {bytes rest : List Byte} {op : Byte}

/-! The operand bytes (R70, R72). -/

theorem operandBytes_length (i : Instr) : i.operandBytes.length = i.handler.operandCount := by cases i <;> rfl

/-- The decoder reads an instruction's own operand bytes back, whatever follows them. -/
theorem takeOperands_operandBytes (i : Instr) (rest : List Byte) :
    takeOperands i.handler (i.operandBytes ++ rest) = .ok (i, rest) := by
  cases i <;> rfl

theorem operandCount_cases (h : Handler) : h.operandCount = 0 ∨ h.operandCount = 1 ∨ h.operandCount = 2 := by
  have := operandCount_le h
  omega

theorem takeOperands_zero (hn : h.operandCount = 0) (bytes : List Byte) :
    takeOperands h bytes = .ok (h.instr 0 0, bytes) := by
  simp only [takeOperands, hn]

theorem takeOperands_one (hn : h.operandCount = 1) (a : Byte) (rest : List Byte) :
    takeOperands h (a :: rest) = .ok (h.instr a 0, rest) := by
  simp only [takeOperands, hn]

theorem takeOperands_two (hn : h.operandCount = 2) (a b : Byte) (rest : List Byte) :
    takeOperands h (a :: b :: rest) = .ok (h.instr a b, rest) := by
  simp only [takeOperands, hn]

theorem takeOperands_missing_first (hn : h.operandCount ≠ 0) : takeOperands h [] = .error (.missing 1) := by
  obtain hc | hc | hc := operandCount_cases h
  · exact absurd hc hn
  · simp only [takeOperands, hc]
  · simp only [takeOperands, hc]

theorem takeOperands_missing_second (hn : h.operandCount = 2) (a : Byte) :
    takeOperands h [a] = .error (.missing 2) := by
  simp only [takeOperands, hn]

/-- The operand bytes of a handler's instruction are the first of the two bytes it was made of. -/
theorem operandBytes_instr (h : Handler) (a b : Byte) : (h.instr a b).operandBytes = [a, b].take h.operandCount := by
  cases h <;> rfl

/-- Operand bytes that the decoder takes are those of the instruction it answers. -/
theorem takeOperands_eq_ok (ht : takeOperands h bytes = .ok (i, rest)) :
    i.handler = h ∧ bytes = i.operandBytes ++ rest := by
  obtain hn | hn | hn := operandCount_cases h
  · cases (takeOperands_zero hn bytes).symm.trans ht
    simp [operandBytes_instr, hn]
  · match bytes with
    | [] => cases (takeOperands_missing_first (by omega)).symm.trans ht
    | a :: rest =>
      cases (takeOperands_one hn a rest).symm.trans ht
      simp [operandBytes_instr, hn]
  · match bytes with
    | [] => cases (takeOperands_missing_first (by omega)).symm.trans ht
    | [a] => cases (takeOperands_missing_second hn a).symm.trans ht
    | a :: b :: rest =>
      cases (takeOperands_two hn a b rest).symm.trans ht
      simp [operandBytes_instr, hn]

/-! The whole instruction (R81). -/

theorem decodeWith_of_dispatch (hd : dispatch m op = some h) (bytes : List Byte) :
    decodeWith m (op :: bytes) = takeOperands h bytes := by
  rw [decodeWith, hd]

theorem decodeWith_of_not_dispatch (hd : dispatch m op = none) (bytes : List Byte) :
    decodeWith m (op :: bytes) = .error (.unknownOpcode op) := by
  rw [decodeWith, hd]

/-- Under a legal map the opcode byte dispatches to the instruction's handler, which reads its operand bytes back. -/
theorem decodeWith_encodeWith (hm : m.valid = true) (i : Instr) (rest : List Byte) :
    decodeWith m (encodeWith m i ++ rest) = .ok (i, rest) :=
  (decodeWith_of_dispatch (dispatch_opcode hm i.handler) _).trans (takeOperands_operandBytes i rest)

theorem decodeWith_eq_ok (hdec : decodeWith m bytes = .ok (i, rest)) : bytes = encodeWith m i ++ rest := by
  cases bytes with
  | nil => cases hdec
  | cons op bytes =>
    cases hd : dispatch m op with
    | none => cases (decodeWith_of_not_dispatch hd bytes).symm.trans hdec
    | some h =>
      obtain ⟨rfl, rfl⟩ := takeOperands_eq_ok ((decodeWith_of_dispatch hd bytes).symm.trans hdec)
      rw [← dispatch_eq_some hd]
      rfl

/-- The default map is a legal one (R76). -/
theorem opcodeMap_standard_valid : OpcodeMap.standard.valid = true := by decide

/-- Settles O2: the round trip under any legal map, of which the default map is one. -/
theorem decodeInvertsEncode : Obligations.DecodeInvertsEncode := by
  unfold Obligations.DecodeInvertsEncode
  exact ⟨fun m i rest hm => decodeWith_encodeWith hm i rest, decodeWith_encodeWith opcodeMap_standard_valid⟩

/-- Settles O3: the first byte is the opcode of the handler it dispatches to, and the operand bytes are the
instruction's. -/
theorem encodeInvertsDecode : Obligations.EncodeInvertsDecode := by
  unfold Obligations.EncodeInvertsDecode
  exact fun m bytes rest i => decodeWith_eq_ok

/-! The length and the default map (R71, R76). -/

theorem encodeWith_length (m : OpcodeMap) (i : Instr) : (encodeWith m i).length = 1 + i.handler.operandCount := by
  rw [encodeWith, List.length_cons, operandBytes_length, Nat.add_comm]

theorem encodeWith_length_le (m : OpcodeMap) (i : Instr) : (encodeWith m i).length ≤ 3 := by
  have := operandCount_le i.handler
  rw [encodeWith_length]
  omega

/-- The two high bits of a legal map's opcodes are the operand counts (R76). -/
theorem highBits_of_valid (hm : m.valid = true) (h : Handler) : highBits (m h) = h.operandCount := by
  have hall := (Bool.and_eq_true_iff.1 hm).2
  simpa using List.all_eq_true.1 hall h (mem_handlers h)

/-- Settles O6: a legal map's high bits are the operand count, which is at most 2. -/
theorem lengthFromTheHighBits : Obligations.LengthFromTheHighBits := by
  unfold Obligations.LengthFromTheHighBits
  intro m i hm
  exact ⟨by rw [highBits_of_valid hm, encodeWith_length], encodeWith_length_le m i⟩

/-- A byte dispatches exactly if it is some handler's opcode. -/
theorem dispatch_isSome_iff (m : OpcodeMap) (op : Byte) : (dispatch m op).isSome = true ↔ ∃ h, m h = op := by
  simp [dispatch, List.find?_isSome, mem_handlers]

/-- Settles O5: the bytes that dispatch are the thirteen opcodes, gone through by handler. -/
theorem dispatchedBytesAreTheThirteen : Obligations.DispatchedBytesAreTheThirteen := by
  unfold Obligations.DispatchedBytesAreTheThirteen
  refine ⟨opcodeMap_standard_valid, fun op => ⟨fun hop => ?listed, fun hop => ?dispatches⟩⟩
  case listed =>
    obtain ⟨h, rfl⟩ := (dispatch_isSome_iff _ op).1 hop
    cases h <;> decide
  case dispatches =>
    simp only [List.mem_cons, List.not_mem_nil, or_false] at hop
    obtain rfl | rfl | rfl | rfl | rfl | rfl | rfl | rfl | rfl | rfl | rfl | rfl | rfl := hop <;> rfl

/-- Settles O1: each word decodes by evaluation. -/
theorem opcodeTableWordsDecode : Obligations.OpcodeTableWordsDecode := by
  unfold Obligations.OpcodeTableWordsDecode
  exact ⟨rfl, rfl, rfl, rfl, rfl, rfl, rfl, rfl, rfl, rfl, rfl, rfl, rfl⟩

end Sys2Proof.Machine
end

section
/-! PROOFS. What an instruction does to the parts of the state beside the registers: memory (O39, `spec/10_state.md`
R35), flags (O40, R28 to R30), output (O42, R37), run state and record (O43, R31 to R33). Each is read off `ExecResult`. -/

namespace Sys2Proof.Machine

variable {c : Config} {m : OpcodeMap} {s t : State} {i : Instr} {r : Raise}

/-! Memory (R35). -/

/-- An instruction leaves memory alone, unless it is PUSH or CALL and stores one byte at the decremented SP. -/
theorem ExecResult.mem_cases (h : ExecResult c s i t) :
    t.mem = s.mem ∨
    (i.handler = .push ∨ i.handler = .call) ∧ ∃ v, t.mem = Memory.write s.mem s.decSp.sp.toNat v := by
  cases h with
  | push => exact .inr ⟨.inl rfl, _, rfl⟩
  | call => exact .inr ⟨.inr rfl, _, rfl⟩
  | _ => exact .inl rfl

theorem cell_eq_of_mem_eq (h : t.mem = s.mem) (x : Nat) : t.cell x = s.cell x :=
  congrArg (Memory.read · x) h

/-- Settles O39: the one byte that PUSH or CALL stores is at the decremented SP. -/
theorem onlyPushAndCallStore : Obligations.OnlyPushAndCallStore := by
  unfold Obligations.OnlyPushAndCallStore
  intro i s t hex
  obtain hmem | ⟨hi, v, hmem⟩ := (exec_next hex).mem_cases
  · exact ⟨fun _ _ => cell_eq_of_mem_eq hmem, fun x _ => cell_eq_of_mem_eq hmem x⟩
  · refine ⟨fun hpush hcall => (hi.elim hpush hcall).elim, fun x hx => ?_⟩
    calc t.cell x = Memory.read (Memory.write s.mem s.decSp.sp.toNat v) x := congrArg (Memory.read · x) hmem
      _ = s.cell x := Memory.read_write_of_ne s.mem v hx

/-! Flags (R28 to R30). -/

/-- An instruction other than JEQ and JNE has the same result, but for the flags, whatever the flags hold. -/
theorem ExecResult.of_setFl (h : ExecResult c s i t) (v : Byte) (hjeq : i.handler ≠ .jeq) (hjne : i.handler ≠ .jne) :
    ∃ u, ExecResult c (s.setFl v) i u ∧ u.setFl t.fl = t := by
  cases h with
  | invalidRegister h hv => exact ⟨_, .invalidRegister h hv, rfl⟩
  | returnAddress h hp => exact ⟨_, .returnAddress h hp, rfl⟩
  | hlt => exact ⟨_, .hlt, rfl⟩
  | ldi h => exact ⟨_, .ldi h, rfl⟩
  | prn h => exact ⟨_, .prn h, rfl⟩
  | mul ha hb => exact ⟨_, .mul ha hb, rfl⟩
  | add ha hb => exact ⟨_, .add ha hb, rfl⟩
  | cmp ha hb => exact ⟨_, .cmp ha hb, rfl⟩
  | push h => exact ⟨_, .push h, rfl⟩
  | pop h => exact ⟨_, .pop h, rfl⟩
  | call h hp => exact ⟨_, .call h hp, rfl⟩
  | ret => exact ⟨_, .ret, rfl⟩
  | jmp h => exact ⟨_, .jmp h, rfl⟩
  | jeqTaken | jeqNot => exact absurd rfl hjeq
  | jneTaken | jneNot => exact absurd rfl hjne

/-- What CMP leaves in E: set for equal operands; for others clear, or under the sticky parameter as it was (R122). -/
theorem flagE_compareFlags (sticky : Bool) (fl p q : Byte) :
    flagE (compareFlags sticky fl p q) = (decide (p = q) || (sticky && flagE fl)) := by
  by_cases hpq : p = q
  · rw [compareFlags, if_pos hpq, decide_eq_true hpq]
    exact withFlagE_zero fl true
  · rw [compareFlags, if_neg hpq, decide_eq_false hpq]
    cases sticky with
    | true => rfl
    | false => exact withFlagE_zero fl false

/-- CMP of two registers leaves E telling whether they are equal, CMP_STICKY_E being false (decision D4). -/
theorem e_of_exec_cmp {a b : Byte} {r q : Reg} (ha : a.toNat = r.val) (hb : b.toNat = q.val)
    (h : exec (.cmp a b) s = .next t) : t.e = decide (s.getReg r = s.getReg q) := by
  cases (execCmpWith_eq false ha hb).symm.trans h
  exact (flagE_compareFlags false _ _ _).trans (Bool.or_false _)

/-- Settles O40: only CMP writes the flags, the result of an instruction that is no branch is that from any flags, E
after CMP is the comparison of the registers, and the branches are on E and its negation. -/
theorem flagsAreCmpAndBranchesOnly : Obligations.FlagsAreCmpAndBranchesOnly := by
  unfold Obligations.FlagsAreCmpAndBranchesOnly
  refine ⟨fun i s t hex hi => ?kept, fun i s t v hex hjeq hjne => ?indifferent, fun a b s t u v hwf ht hu => ?cmp,
    fun s a r ha => ⟨?jeq, ?jne⟩⟩
  case kept => exact (exec_next hex).fl_of_ne_cmp fun a b hab => hi (congrArg Instr.handler hab)
  case indifferent =>
    obtain ⟨u, hu, hut⟩ := (exec_next hex).of_setFl v hjeq hjne
    exact ⟨u, hu.exec_eq, hut⟩
  case cmp =>
    obtain ⟨ha, hb⟩ : Byte.isReg a = true ∧ Byte.isReg b = true := Bool.and_eq_true_iff.1 hwf
    have hreg {a : Byte} (h : Byte.isReg a = true) : a.toNat = (⟨a.toNat, (isReg_iff a).1 h⟩ : Reg).val := rfl
    rw [e_of_exec_cmp (hreg ha) (hreg hb) ht, e_of_exec_cmp (hreg ha) (hreg hb) hu]
    rfl
  case jeq =>
    rw [exec_jeq_eq_branch, branch_eq s.e ha, State.e, flagE]
    cases s.fl[0] <;> rfl
  case jne =>
    rw [exec_jne_eq_branch, branch_eq (!s.e) ha, State.e, flagE]
    cases s.fl[0] <;> rfl

/-! Output (R37). -/

/-- An instruction has the same result with other values printed before. -/
theorem ExecResult.of_earlier_output (h : ExecResult c s i t) (before : List Byte) :
    ExecResult c { s with out := before ++ s.out } i { t with out := before ++ t.out } := by
  cases h with
  | invalidRegister h hv => exact .invalidRegister h hv
  | returnAddress h hp => exact .returnAddress h hp
  | hlt => exact .hlt
  | ldi h => exact .ldi h
  | prn h =>
    have key := ExecResult.prn (c := c) (s := { s with out := before ++ s.out }) h
    rwa [State.emit, List.append_assoc] at key
  | mul ha hb => exact .mul ha hb
  | add ha hb => exact .add ha hb
  | cmp ha hb => exact .cmp ha hb
  | push h => exact .push h
  | pop h => exact .pop h
  | call h hp => exact .call h hp
  | ret => exact .ret
  | jmp h => exact .jmp h
  | jeqTaken h he => exact .jeqTaken h he
  | jeqNot h he => exact .jeqNot h he
  | jneTaken h he => exact .jneTaken h he
  | jneNot h he => exact .jneNot h he

theorem runStep_of_fetch_ok {ex : Instr → State → Outcome} (hrun : s.rs = .running) (hf : s.fetch m = .ok i) :
    runStep m ex s = ex i s := by
  rw [runStep_running hrun, hf]

theorem runStep_of_fetch_error {ex : Instr → State → Outcome} (hrun : s.rs = .running) (hf : s.fetch m = .error r) :
    runStep m ex s = .next (s.raise r) := by
  rw [runStep_running hrun, hf]

/-- Settles O42: the fetch does not look at the output, and an instruction only appends to it. -/
theorem outputIsNeverRead : Obligations.OutputIsNeverRead := by
  unfold Obligations.OutputIsNeverRead
  intro s t before hstep
  obtain ⟨hrun, ⟨i, hfetch, hex⟩ | ⟨r, hfetch, rfl⟩⟩ := runStep_next hstep
  · exact (runStep_of_fetch_ok (s := { s with out := before ++ s.out }) hrun hfetch).trans
      ((exec_next hex).of_earlier_output before).exec_eq
  · exact runStep_of_fetch_error (s := { s with out := before ++ s.out }) hrun hfetch

/-! Run state and record (R31 to R33). -/

/-- An instruction halts the engine as HLT, leaves run state and record alone, or takes a fault: InvalidRegister for a
byte of 8 or more, or OutOfBounds for a CALL whose return address is past the end. -/
theorem ExecResult.rs_cases (h : ExecResult c s i t) :
    (i = .hlt ∧ t = s.halt) ∨ (i ≠ .hlt ∧ t.rs = s.rs ∧ t.faultRecord = s.faultRecord) ∨
    (i ≠ .hlt ∧ ((∃ v : Byte, 8 ≤ v.toNat ∧ t = s.raise (.invalidRegister v)) ∨
      (i.handler = .call ∧ 254 ≤ s.pc.toNat ∧ t = s.raise (.outOfBounds (s.pc + 2))))) := by
  cases h with
  | hlt => exact .inl ⟨rfl, rfl⟩
  | @invalidRegister i v hbad hv =>
    have hi : i ≠ .hlt := fun hi => by
      rw [hi] at hbad
      cases hbad
    exact .inr (.inr ⟨hi, .inl ⟨v, hv, rfl⟩⟩)
  | returnAddress _ hp => exact .inr (.inr ⟨nofun, .inr ⟨rfl, hp, rfl⟩⟩)
  | _ => exact .inr (.inl ⟨nofun, rfl, rfl⟩)

/-- Settles O43: the three ways an instruction can treat run state and record. -/
theorem onlyHltAndFaultsEndARun : Obligations.OnlyHltAndFaultsEndARun := by
  unfold Obligations.OnlyHltAndFaultsEndARun
  intro i s t hex
  obtain ⟨hi, rfl⟩ | hkept | ⟨hi, ⟨v, -, rfl⟩ | ⟨-, -, rfl⟩⟩ := (exec_next hex).rs_cases
  · exact .inl ⟨hi, rfl, rfl⟩
  · exact .inr (.inl hkept)
  · exact .inr (.inr ⟨hi, _, rfl⟩)
  · exact .inr (.inr ⟨hi, _, rfl⟩)

end Sys2Proof.Machine
end

section
/-! PROOFS. The step under every configuration (O16, O37, O44, O52, `spec/40_engine_cycle.md` R95 to R102): when one
exists, what the fetch answers, and how a run ends. -/

namespace Sys2Proof.Machine

variable {c : Config} {m : OpcodeMap} {s t : State} {h : Handler} {i : Instr} {r : Raise}

theorem step_eq_stepWith (s : State) : step s = stepWith Config.standard s := by
  rw [step, stepWith, funext fun i => funext (execWith_standard i)]

/-- Settles O52: instruction by instruction `exec` is `execWith` of the default configuration. -/
theorem stepIsTheDefaultConfiguration : Obligations.StepIsTheDefaultConfiguration := by
  unfold Obligations.StepIsTheDefaultConfiguration
  exact step_eq_stepWith

/-- A step exists exactly in a RUNNING state, under every configuration. -/
theorem stepWith_exists_iff (c : Config) (s : State) : (∃ t, stepWith c s = .next t) ↔ s.rs = .running := by
  refine ⟨fun ⟨t, ht⟩ => (runStep_next ht).1, fun hrun => ?_⟩
  cases hfetch : s.fetch c.opcodes with
  | ok i =>
    obtain ⟨t, ht, -⟩ := execWith_result c i s
    exact ⟨t, (runStep_of_fetch_ok hrun hfetch).trans ht⟩
  | error r => exact ⟨_, runStep_of_fetch_error hrun hfetch⟩

/-- Settles O16: the default configuration's case, and the two named stops. -/
theorem stepExistsExactlyWhenRunning : Obligations.StepExistsExactlyWhenRunning := by
  unfold Obligations.StepExistsExactlyWhenRunning
  refine ⟨fun s => ?_, fun s => runStep_halted, fun s => runStep_faulted⟩
  rw [step_eq_stepWith]
  exact stepWith_exists_iff _ s

/-- A step that ends HALTED began at HLT's opcode in memory and only halted the engine. -/
theorem stepWith_halted (h : stepWith c s = .next t) (ht : t.rs = .halted) :
    s.pc.toNat < 256 ∧ s.cell s.pc.toNat = c.opcodes .hlt ∧ t = s.halt := by
  obtain ⟨hrun, ⟨i, hfetch, hex⟩ | ⟨r, -, rfl⟩⟩ := runStep_next h
  · obtain ⟨rfl, rfl⟩ | ⟨-, hrs, -⟩ | ⟨-, ⟨v, -, rfl⟩ | ⟨-, -, rfl⟩⟩ := (execWith_next hex).rs_cases
    · obtain ⟨hlen, hd⟩ := fetch_eq_ok hfetch
      exact ⟨hlen, (dispatch_eq_some hd).symm, rfl⟩
    · cases hrun.symm.trans (hrs.symm.trans ht)
    · cases ht
    · cases ht
  · cases ht

/-- Settles O44: a step to HALTED began at HLT's opcode, one from there only halts, and one to FAULTED is fault
entry. -/
theorem runStateTransitions : Obligations.RunStateTransitions := by
  unfold Obligations.RunStateTransitions
  intro s t hstep
  have hrun : s.rs = .running := (runStep_next hstep).1
  refine ⟨hrun, ⟨fun ht => ?_, fun hop => ?_⟩, step_eq_raise_of_faulted hstep, ?_⟩
  · obtain ⟨hpc, hcell, -⟩ := stepWith_halted ((step_eq_stepWith s).symm.trans hstep) ht
    exact ⟨hrun, hpc, hcell⟩
  · cases (step_of_no_operands hop rfl).symm.trans hstep
    rfl
  · rintro ⟨r, rfl⟩
    rfl

/-! The faults of the fetch (R96 to R98). -/

theorem fetch_past_end (hpc : 256 ≤ s.pc.toNat) : s.fetch m = .error (.outOfBounds s.pc) := by
  rw [fetch_eq_cells, if_neg (by omega)]

theorem fetch_not_dispatched (hpc : s.pc.toNat < 256) (hd : dispatch m (s.cell s.pc.toNat) = none) :
    s.fetch m = .error (.unknownOpcode (s.cell s.pc.toNat)) := by
  rw [fetch_eq_cells, if_pos hpc, hd]

/-- A format with no operand byte ignores both. -/
theorem instr_of_count_zero (hn : h.operandCount = 0) (a b a' b' : Byte) : h.instr a b = h.instr a' b' := by
  cases h with
  | hlt | ret => rfl
  | _ => cases hn

/-- A format with one operand byte ignores the second. -/
theorem instr_of_count_one (hn : h.operandCount = 1) (a b b' : Byte) : h.instr a b = h.instr a b' := by
  cases h with
  | prn | push | pop | call | jmp | jeq | jne => rfl
  | _ => cases hn

/-- Where every byte of the format is in memory, the instruction is the handler's on the two cells behind the opcode,
of which it ignores those its format has not. -/
theorem fetch_operands_inside (hd : dispatch m (s.cell s.pc.toNat) = some h)
    (hend : s.pc.toNat + h.operandCount < 256) :
    s.fetch m = .ok (h.instr (s.cell (s.pc.toNat + 1)) (s.cell (s.pc.toNat + 2))) := by
  rw [fetch_eq_cells, if_pos (by omega), hd]
  dsimp only
  obtain hn | hn | hn := operandCount_cases h
  · rw [if_pos hn, instr_of_count_zero hn]
  · rw [if_neg (by omega), if_pos (by omega), if_pos hn, instr_of_count_one hn]
  · rw [if_neg (by omega), if_pos (by omega), if_neg (by omega), if_pos (by omega)]

/-- A fetch fails with UnknownOpcode or with OutOfBounds, the latter at 256 unless `pc` is already beyond. -/
theorem fetch_eq_error (hf : s.fetch m = .error r) :
    (∃ op, r = .unknownOpcode op) ∨ ∃ addr, r = .outOfBounds addr ∧ (s.pc.toNat ≤ 256 → addr = 256) := by
  by_cases hpc : s.pc.toNat < 256
  · cases hd : dispatch m (s.cell s.pc.toNat) with
    | none =>
      cases (fetch_not_dispatched hpc hd).symm.trans hf
      exact .inl ⟨_, rfl⟩
    | some h =>
      by_cases hend : s.pc.toNat + h.operandCount < 256
      · cases (fetch_operands_inside hd hend).symm.trans hf
      · cases (fetch_operands_past_end hd hpc (by omega)).symm.trans hf
        exact .inr ⟨_, rfl, fun _ => rfl⟩
  · cases (fetch_past_end (by omega)).symm.trans hf
    exact .inr ⟨_, rfl, fun hle => BitVec.eq_of_toNat_eq (show s.pc.toNat = 256 by omega)⟩

/-- Settles O37: the faults of the fetch and those of an instruction are of the other three kinds. -/
theorem unsupportedAluOperationNeverRaised : Obligations.UnsupportedAluOperationNeverRaised := by
  unfold Obligations.UnsupportedAluOperationNeverRaised
  refine ⟨fun c s t code hstep hraise => ?_, fun _ _ _ => rfl⟩
  subst hraise
  obtain ⟨hrun, ⟨i, -, hex⟩ | ⟨r, hfetch, heq⟩⟩ := runStep_next hstep
  · obtain ⟨v, -, heq⟩ | heq := (execWith_next hex).eq_raise_of_faulted (by simp [hrun]) rfl
    · cases kind_eq_of_raise_eq heq
    · cases kind_eq_of_raise_eq heq
  · obtain ⟨op, rfl⟩ | ⟨addr, rfl, -⟩ := fetch_eq_error hfetch
    · cases kind_eq_of_raise_eq heq
    · cases kind_eq_of_raise_eq heq

end Sys2Proof.Machine
end

section
/-! PROOFS. The invariant (O53, O54, `spec/10_state.md` R26, R28, R33, R35): reset meets it and every step keeps it. -/

namespace Sys2Proof.Machine

variable {c : Config} {s t : State} {i : Instr} {r : Raise}

/-- After reset memory is empty, `pc` and the flags are 0, and there is no record. -/
theorem resetWith_inv (c : Config) : (State.resetWith c).Inv :=
  { mem := Memory.wf_reset c, pc := Nat.zero_le _, fl := Nat.zero_le _, record := rfl }

/-- Settles O53: the fixed reset state is that of the default configuration. -/
theorem resetMeetsTheInvariant : Obligations.ResetMeetsTheInvariant := by
  unfold Obligations.ResetMeetsTheInvariant
  exact ⟨resetWith_inv Config.standard, resetWith_inv⟩

theorem recordAgrees_of_none (hrec : s.faultRecord = none) (hrs : s.rs ≠ .faulted) : s.recordAgrees = true := by
  simp [State.recordAgrees, hrec, hrs]

/-- An engine that is not FAULTED has no fault record. -/
theorem State.Inv.faultRecord_eq_none (h : s.Inv) (hrs : s.rs ≠ .faulted) : s.faultRecord = none := by
  have hagree := h.record
  cases hrec : s.faultRecord with
  | none => rfl
  | some record => simp [State.recordAgrees, hrec, hrs] at hagree

/-- Fault entry keeps the invariant where the record it writes is a legal one. -/
theorem State.Inv.after_raise (h : s.Inv) (hr : FaultRecord.legal ⟨r.kind, s.pc, r.info⟩ = true) : (s.raise r).Inv :=
  { mem := h.mem, pc := h.pc, fl := h.fl, record := by simp [State.recordAgrees, hr] }

theorem legal_unknownOpcode (op : Byte) (pc : Addr) :
    FaultRecord.legal ⟨(Raise.unknownOpcode op).kind, pc, (Raise.unknownOpcode op).info⟩ = true :=
  decide_eq_true (zext9_lt op)

theorem legal_invalidRegister {v : Byte} (hv : 8 ≤ v.toNat) (pc : Addr) :
    FaultRecord.legal ⟨(Raise.invalidRegister v).kind, pc, (Raise.invalidRegister v).info⟩ = true :=
  Bool.and_eq_true_iff.2 ⟨decide_eq_true ((zext9_toNat v).symm ▸ hv), decide_eq_true (zext9_lt v)⟩

theorem ExecResult.wf_mem (h : ExecResult c s i t) (hm : Memory.wf s.mem = true) : Memory.wf t.mem = true := by
  obtain hmem | ⟨-, v, hmem⟩ := h.mem_cases
  · exact hmem ▸ hm
  · exact hmem ▸ Memory.wf_write _ v hm s.decSp.sp.isLt

/-- The flags stay 0 or 1: only CMP writes them, and only bit 0. -/
theorem ExecResult.fl_le_one (h : ExecResult c s i t) (hfl : s.fl.toNat ≤ 1) : t.fl.toNat ≤ 1 := by
  cases h with
  | @cmp a b r q =>
    change (compareFlags c.cmpStickyE s.fl (s.getReg r) (s.getReg q)).toNat ≤ 1
    obtain heq | ⟨-, -, heq⟩ := compareFlags_cases c.cmpStickyE s.fl (s.getReg r) (s.getReg q)
    · rw [heq]
      exact withFlagE_le_one _ hfl
    · rw [heq]
      exact hfl
  | _ => exact hfl

/-- After an instruction whose bytes are in memory `pc` is where it was, a byte's value, or just behind the
instruction. -/
theorem ExecResult.pc_le (h : ExecResult c s i t) (hlen : s.pc.toNat + i.length ≤ 256) : t.pc.toNat ≤ 256 := by
  have stays : s.pc.toNat ≤ 256 := by omega
  have jump (v : Byte) : (zext9 v).toNat ≤ 256 := (zext9_lt v).le
  have next {k : Nat} (hk : k ≤ 3) (hi : i.length = k) : (s.pc + BitVec.ofNat 9 k).toNat ≤ 256 := by
    rw [pc_add_toNat hk stays, ← hi]
    exact hlen
  cases h with
  | invalidRegister | returnAddress | hlt => exact stays
  | ldi | mul | add | cmp => exact next (k := 3) (by decide) rfl
  | prn | push | pop | jeqNot | jneNot => exact next (k := 2) (by decide) rfl
  | call | ret | jmp | jeqTaken | jneTaken => exact jump _

/-- An instruction fetched whole from a RUNNING state keeps the invariant. -/
theorem ExecResult.inv (h : ExecResult c s i t) (hs : s.Inv) (hrun : s.rs = .running)
    (hlen : s.pc.toNat + i.length ≤ 256) : t.Inv := by
  have hrec : s.faultRecord = none := hs.faultRecord_eq_none (by simp [hrun])
  have hkept (hrs : t.rs ≠ .faulted) (ht : t.faultRecord = s.faultRecord) : t.Inv :=
    { mem := h.wf_mem hs.mem, pc := h.pc_le hlen, fl := h.fl_le_one hs.fl,
      record := recordAgrees_of_none (ht.trans hrec) hrs }
  obtain ⟨-, rfl⟩ | ⟨-, hrs, ht⟩ | ⟨-, ⟨v, hv, rfl⟩ | ⟨hi, hp, rfl⟩⟩ := h.rs_cases
  · exact hkept (by simp) rfl
  · exact hkept (by simp [hrs, hrun]) ht
  · exact hs.after_raise (legal_invalidRegister hv _)
  · have hlen2 : i.length = 2 := by rw [Instr.length, hi]; rfl
    have hpc : s.pc + 2 = 256 := pc_add_eq_256 (k := 2) (by decide) (by omega)
    rw [hpc]
    exact hs.after_raise rfl

/-- Every step keeps the invariant: an instruction fetched whole does, and so does each fault of the fetch. -/
theorem State.Inv.after_stepWith (hs : s.Inv) (h : stepWith c s = .next t) : t.Inv := by
  obtain ⟨hrun, ⟨i, hfetch, hex⟩ | ⟨r, hfetch, rfl⟩⟩ := runStep_next h
  · exact (execWith_next hex).inv hs hrun (fetch_eq_ok hfetch).1
  · obtain ⟨op, rfl⟩ | ⟨addr, rfl, haddr⟩ := fetch_eq_error hfetch
    · exact hs.after_raise (legal_unknownOpcode op _)
    · rw [haddr hs.pc]
      exact hs.after_raise rfl

/-- Settles O54: the step lemma at any configuration, and at the default one for `step`. -/
theorem stepKeepsTheInvariant : Obligations.StepKeepsTheInvariant := by
  unfold Obligations.StepKeepsTheInvariant
  exact ⟨fun s t hs h => hs.after_stepWith ((step_eq_stepWith s).symm.trans h), fun c s t hs => hs.after_stepWith⟩

end Sys2Proof.Machine
end

section
/-! PROOFS. Memory as data (O9, `spec/10_state.md` R35), and launch (O12, O13, O51, `spec/70_reset_and_hazards.md` R190,
R193): an image that fits is placed byte by byte. -/

namespace Sys2Proof.Machine

variable {s : State} {m n : Memory}

/-! The canonical form (log entry 16). -/

/-- A canonical memory that reads as one whose first listed cell is `a` lists some cell up to `a`. -/
theorem Memory.exists_head_le {lo lo' a : Nat} {v : Byte} (hm : Memory.wfFrom lo ((a, v) :: m) = true)
    (hn : Memory.wfFrom lo' n = true) (hread : Memory.read n a = Memory.read ((a, v) :: m) a) :
    ∃ b w n', n = (b, w) :: n' ∧ b ≤ a := by
  obtain ⟨-, -, hv, -⟩ := (Memory.wfFrom_cell ..).1 hm
  rw [Memory.read_cell, if_pos rfl] at hread
  match n with
  | [] => exact absurd hread.symm hv
  | (b, w) :: n' =>
    refine ⟨b, w, n', rfl, Nat.le_of_not_lt fun hab => hv ?_⟩
    obtain ⟨-, hb⟩ := (Memory.wfFrom_cell ..).1 hn
    exact hread.symm.trans (Memory.read_below ((Memory.wfFrom_cell ..).2 ⟨le_rfl, hb⟩) hab)

/-- Canonical memories that read the same have the same first cell and, by induction, the same rest. -/
theorem Memory.eq_of_read_eq {lo : Nat} (hm : Memory.wfFrom lo m = true) (hn : Memory.wfFrom lo n = true)
    (hread : ∀ a, a < memSize → Memory.read m a = Memory.read n a) : m = n := by
  induction m generalizing lo n with
  | nil =>
    match n with
    | [] => rfl
    | (b, w) :: n =>
      obtain ⟨-, hb, -⟩ := (Memory.wfFrom_cell ..).1 hn
      obtain ⟨_, _, _, hnil, -⟩ := Memory.exists_head_le hn hm (hread b hb)
      cases hnil
  | cons cell m ih =>
    obtain ⟨a, v⟩ := cell
    obtain ⟨-, ha, -, hrest⟩ := (Memory.wfFrom_cell ..).1 hm
    obtain ⟨b, w, n, rfl, hba⟩ := Memory.exists_head_le hm hn (hread a ha).symm
    obtain ⟨-, hb, -, hrest'⟩ := (Memory.wfFrom_cell ..).1 hn
    obtain ⟨_, _, _, hcons, hab⟩ := Memory.exists_head_le hn hm (hread b hb)
    cases hcons
    obtain rfl : a = b := by omega
    have hvw : v = w := by simpa using hread a ha
    have hmn : m = n := by
      refine ih hrest hrest' fun x hx => ?_
      by_cases hxa : x = a
      · rw [hxa, Memory.read_below hrest (Nat.lt_succ_self a), Memory.read_below hrest' (Nat.lt_succ_self a)]
      · simpa [hxa] using hread x hx
    rw [hvw, hmn]

/-- Settles O9: canonical memories are determined by what they read. -/
theorem equalMemoriesAreEqualData : Obligations.EqualMemoriesAreEqualData := by
  unfold Obligations.EqualMemoriesAreEqualData
  exact fun m n hm hn => Memory.eq_of_read_eq hm hn

/-! Bytes placed at ascending addresses. -/

theorem Memory.place_cons {a : Nat} (m : Memory) (v : Byte) (vs : List Byte) (ha : a < memSize) :
    Memory.place m a (v :: vs) = Memory.place (Memory.write m a v) (a + 1) vs := by
  rw [Memory.place, if_pos ha]

/-- Cells outside the bytes placed keep their value. -/
theorem Memory.read_place_outside (bytes : List Byte) {a x : Nat} (m : Memory) (hx : x < a ∨ a + bytes.length ≤ x) :
    Memory.read (Memory.place m a bytes) x = Memory.read m x := by
  induction bytes generalizing a m with
  | nil => rfl
  | cons v vs ih =>
    rw [List.length_cons] at hx
    rw [Memory.place, ih _ (by omega)]
    split
    · exact Memory.read_write_of_ne m v (by omega)
    · rfl

/-- Bytes placed inside memory are read back. -/
theorem Memory.read_place_inside (bytes : List Byte) {a k : Nat} (hm : Memory.wf m = true)
    (hfit : a + bytes.length ≤ memSize) (hk : k < bytes.length) :
    Memory.read (Memory.place m a bytes) (a + k) = bytes[k] := by
  induction bytes generalizing a k m with
  | nil => cases hk
  | cons v vs ih =>
    rw [List.length_cons] at hfit hk
    have ha : a < memSize := by omega
    rw [Memory.place_cons m v vs ha]
    cases k with
    | zero => exact (Memory.read_place_outside vs _ (by omega)).trans (Memory.read_write_self a v hm)
    | succ k =>
      rw [show a + (k + 1) = a + 1 + k by omega]
      exact ih (Memory.wf_write a v hm ha) (by omega) (by omega)

/-! Launch (R193). -/

/-- An image that fits is loaded as `Memory.place` puts it. -/
theorem loadFrom_of_fits (image : List Byte) {addr : Addr} (s : State) (hfit : addr.toNat + image.length ≤ 256) :
    State.loadFrom addr image s = .ok { s with mem := Memory.place s.mem addr.toNat image } := by
  induction image generalizing addr s with
  | nil => rfl
  | cons v vs ih =>
    rw [List.length_cons] at hfit
    have haddr : addr.toNat < memSize := show addr.toNat < 256 by omega
    have hnext : (addr + 1).toNat = addr.toNat + 1 := pc_add_toNat (k := 1) (by decide) (by omega)
    rw [State.loadFrom, memWrite_ok v haddr, Memory.place_cons _ v vs haddr, ← hnext]
    exact ih _ (by omega)

/-- An image that does not fit fails at the first address past the end. -/
theorem loadFrom_of_too_long (image : List Byte) {addr : Addr} (s : State) (haddr : addr.toNat ≤ 256)
    (hlong : 256 < addr.toNat + image.length) : State.loadFrom addr image s = .error (.outOfBounds 256) := by
  induction image generalizing addr s with
  | nil =>
    rw [List.length_nil] at hlong
    omega
  | cons v vs ih =>
    rw [List.length_cons] at hlong
    by_cases hlt : addr.toNat < 256
    · have hnext : (addr + 1).toNat = addr.toNat + 1 := pc_add_toNat (k := 1) (by decide) haddr
      rw [State.loadFrom, memWrite_ok v hlt]
      exact ih _ (by omega) (by omega)
    · obtain rfl : addr = 256 := BitVec.eq_of_toNat_eq (show addr.toNat = 256 by omega)
      rfl

/-- What a launch that succeeds leaves: the image placed at address 0 of the reset state. -/
theorem launchWith_eq_ok {c : Config} {image : List Byte} (h : launchWith c image = .ok s) :
    s = { State.resetWith c with mem := Memory.place [] 0 image } := by
  by_cases hfit : image.length ≤ 256
  · cases (loadFrom_of_fits image (addr := 0) _ ((Nat.zero_add _).trans_le hfit)).symm.trans h
    rfl
  · have hlong : 256 < (0 : Addr).toNat + image.length := (Nat.lt_of_not_le hfit).trans_eq (Nat.zero_add _).symm
    cases (loadFrom_of_too_long image (addr := 0) _ (Nat.zero_le 256) hlong).symm.trans h

/-- Settles O13: the loader's success and failure; the cells of the placed image read back, and the rest read 0. -/
theorem launchLoadsTheImage : Obligations.LaunchLoadsTheImage := by
  unfold Obligations.LaunchLoadsTheImage
  refine fun c image => ⟨fun hfit => ?fits, fun hlong => ?tooLong⟩
  case fits =>
    have hend : 0 + image.length ≤ 256 := (Nat.zero_add _).trans_le hfit
    refine ⟨_, loadFrom_of_fits image (addr := 0) _ hend, fun k hk => ?_, fun a ha => ?_, rfl⟩
    · have key := Memory.read_place_inside image (Memory.wf_reset c) hend hk
      rwa [Nat.zero_add] at key
    · exact Memory.read_place_outside image _ (.inr ((Nat.zero_add _).trans_le ha))
  case tooLong =>
    exact loadFrom_of_too_long image (addr := 0) _ (Nat.zero_le 256) (hlong.trans_eq (Nat.zero_add _).symm)

/-- Settles O51: nothing is placed, so the first opcode byte is 0, which the default map does not have. -/
theorem emptyImageFaultsAtOnce : Obligations.EmptyImageFaultsAtOnce := by
  unfold Obligations.EmptyImageFaultsAtOnce
  exact ⟨State.reset, rfl, rfl, rfl⟩

/-- Settles O12: the register file as `getReg_resetWith` gives it, and every other field by definition. -/
theorem resetLeavesTheSpecsValues : Obligations.ResetLeavesTheSpecsValues := by
  unfold Obligations.ResetLeavesTheSpecsValues
  refine ⟨fun c => ⟨fun r hr => ?_, ?_, rfl, rfl, rfl, rfl, fun _ => rfl, rfl⟩, rfl, rfl⟩
  · rw [getReg_resetWith, if_neg hr]
    rfl
  · rw [getReg_resetWith, if_pos rfl]

end Sys2Proof.Machine
end

section
/-! PROOFS. Runs (O55, O56, `spec/00_scope.md` section 6, `spec/70_reset_and_hazards.md` R201): what holds after a
launch and is kept by every step holds of every state of a run. -/

namespace Sys2Proof.Machine

variable {c : Config} {s t : State} {image : List Byte}

/-- What a state has and every step keeps, every state reached from it has. -/
theorem Reaches.induct {P : State → Prop} (h : Reaches c s t) (hs : P s)
    (hstep : ∀ u v, P u → stepWith c u = .next v → P v) : P t := by
  induction h with
  | refl => exact hs
  | step _ hnext ih => exact hstep _ _ ih hnext

/-- A launched image meets the invariant. -/
theorem launchWith_inv (h : launchWith c image = .ok s) : s.Inv := by
  obtain ⟨hmem, hpc, hfl, hrecord⟩ := resetWith_inv c
  cases launchWith_eq_ok h
  exact ⟨Memory.wf_place image 0 hmem, hpc, hfl, hrecord⟩

theorem Reaches.inv (hl : launchWith c image = .ok s) (h : Reaches c s t) : t.Inv :=
  h.induct (launchWith_inv hl) fun _ _ => State.Inv.after_stepWith

/-- Settles O55: the invariant along the run, and a step exactly from RUNNING. -/
theorem everyReachableStateMeetsTheInvariant : Obligations.EveryReachableStateMeetsTheInvariant := by
  unfold Obligations.EveryReachableStateMeetsTheInvariant
  exact fun c image s t hl h => ⟨Reaches.inv hl h, (stepWith_exists_iff c t).symm⟩

/-- The engine, if HALTED, stands at HLT's opcode in memory (R110, decision D13). -/
def State.haltedAtHlt (c : Config) (s : State) : Prop :=
  s.rs = .halted → s.pc.toNat < 256 ∧ s.cell s.pc.toNat = c.opcodes .hlt

/-- Whatever the state before, a step to HALTED ends at HLT's opcode, since it changes the run state only. -/
theorem haltedAtHlt_of_stepWith (h : stepWith c s = .next t) : t.haltedAtHlt c := by
  intro ht
  obtain ⟨hpc, hcell, rfl⟩ := stepWith_halted h ht
  exact ⟨hpc, hcell⟩

theorem Reaches.haltedAtHlt (hl : launchWith c image = .ok s) (h : Reaches c s t) : t.haltedAtHlt c := by
  refine h.induct (fun hs => ?_) fun _ _ _ => haltedAtHlt_of_stepWith
  cases launchWith_eq_ok hl
  cases hs

/-- A FAULTED state that meets the invariant has a record, at its `pc`. -/
theorem State.Inv.record_at_pc (h : s.Inv) (hrs : s.rs = .faulted) :
    ∃ record, s.faultRecord = some record ∧ record.pc = s.pc := by
  have hagree := h.record
  cases hrec : s.faultRecord with
  | none => simp [State.recordAgrees, hrec, hrs] at hagree
  | some record =>
    rw [State.recordAgrees, hrec] at hagree
    exact ⟨record, rfl, of_decide_eq_true (Bool.and_eq_true_iff.1 hagree).2⟩

/-- Settles O56: the invariant for the record, and where the run stands when it has halted. -/
theorem endOfARunShowsWhatEndedIt : Obligations.EndOfARunShowsWhatEndedIt := by
  unfold Obligations.EndOfARunShowsWhatEndedIt
  refine fun c image s t hl h => ⟨fun hhalted => ⟨?completed, Reaches.haltedAtHlt hl h hhalted⟩,
    fun hfaulted => ?aborted⟩
  case completed =>
    have hnone : t.faultRecord = none := (Reaches.inv hl h).faultRecord_eq_none (by simp [hhalted])
    simp [State.completed, hhalted, hnone]
  case aborted =>
    obtain ⟨record, hrec, hpc⟩ := (Reaches.inv hl h).record_at_pc hfaulted
    exact ⟨by simp [State.aborted, hfaulted, hrec], record, hrec, hpc⟩

end Sys2Proof.Machine
end

section
/-! PROOFS. The step as a decode of the bytes at `pc` (O14, O15, O17, O18, `spec/40_engine_cycle.md` R95 to R102): an
instruction that stands there whole is fetched, and the fetch answers as the decoder does on what is inside memory. -/

namespace Sys2Proof.Machine

variable {m : OpcodeMap} {s : State} {h : Handler} {i : Instr} {bytes rest : List Byte}

/-! The operand bytes an instruction is made of. -/

/-- A handler's instruction depends on as many operand bytes as its format has. -/
theorem instr_congr {f g : Nat → Byte} (hfg : ∀ k < h.operandCount, f k = g k) :
    h.instr (f 0) (f 1) = h.instr (g 0) (g 1) := by
  obtain hn | hn | hn := operandCount_cases h
  · exact instr_of_count_zero hn _ _ _ _
  · rw [hfg 0 (by omega)]
    exact instr_of_count_one hn _ _ _
  · rw [hfg 0 (by omega), hfg 1 (by omega)]

theorem instr_operandBytes (i : Instr) :
    i.handler.instr (i.operandBytes.getD 0 0) (i.operandBytes.getD 1 0) = i := by
  cases i <;> rfl

/-! An instruction that stands at `pc` (R96 to R98). -/

theorem holdsAtPc_of_append (hold : s.holdsAtPc (bytes ++ rest)) : s.holdsAtPc bytes := by
  obtain ⟨hend, hcell⟩ := hold
  rw [List.length_append] at hend
  refine ⟨by omega, fun k hk => ?_⟩
  rw [hcell k (by rw [List.length_append]; omega), List.getElem_append_left hk]

/-- Under a legal map an instruction whose encoding stands at `pc` is what is fetched. -/
theorem fetch_of_holdsAtPc (hm : m.valid = true) (hold : s.holdsAtPc (encodeWith m i)) : s.fetch m = .ok i := by
  obtain ⟨hend, hcell⟩ := hold
  rw [encodeWith_length] at hend
  have hop : s.cell s.pc.toNat = m i.handler := hcell 0 (Nat.succ_pos _)
  have hd : dispatch m (s.cell s.pc.toNat) = some i.handler := hop ▸ dispatch_opcode hm i.handler
  have hoperand (k : Nat) (hk : k < i.handler.operandCount) :
      s.cell (s.pc.toNat + (k + 1)) = i.operandBytes.getD k 0 := by
    have hk' : k < i.operandBytes.length := operandBytes_length i ▸ hk
    rw [hcell (k + 1) (Nat.succ_lt_succ hk'), List.getD_eq_getElem _ _ hk']
    rfl
  have hinstr := (instr_congr hoperand).trans (instr_operandBytes i)
  rw [fetch_operands_inside hd (by change _ ≤ 256 at hend; omega)]
  exact congrArg Except.ok hinstr

/-- The step of the machine at the encoding of an instruction is its meaning. -/
theorem step_of_holdsAtPc (hrun : s.rs = .running) (hold : s.holdsAtPc (encode i)) : step s = exec i s :=
  runStep_of_fetch_ok hrun (fetch_of_holdsAtPc opcodeMap_standard_valid hold)

/-- Settles O14: bytes that decode with nothing left are the encoding. -/
theorem stepRunsTheDecodedInstruction : Obligations.StepRunsTheDecodedInstruction := by
  unfold Obligations.StepRunsTheDecodedInstruction
  intro s bytes i hrun hold hdec
  have hbytes : bytes = encode i := (decodeWith_eq_ok hdec).trans (List.append_nil _)
  exact step_of_holdsAtPc hrun (hbytes ▸ hold)

/-! A word of the opcode table (log entry 15). -/

theorem holdsAtPc_placeAtPc (hm : Memory.wf s.mem = true) (hfit : s.pc.toNat + bytes.length ≤ 256) :
    (s.placeAtPc bytes).holdsAtPc bytes :=
  ⟨hfit, fun _ hk => Memory.read_place_inside bytes hm hfit hk⟩

theorem decodeTableWord_eq_some {nbits w : Nat} (hdec : decodeTableWord nbits w = some i) :
    ∃ rest, decode (tableBytes nbits w) = .ok (i, rest) := by
  unfold decodeTableWord at hdec
  split at hdec
  · cases hdec
    exact ⟨_, ‹_›⟩
  · cases hdec

/-- Settles O17: the three bytes placed begin with the encoding of the instruction they decode to. -/
theorem placedTableWordRunsNext : Obligations.PlacedTableWordRunsNext := by
  unfold Obligations.PlacedTableWordRunsNext
  intro s nbits w i hrun hpc hm hdec
  obtain ⟨rest, hrest⟩ := decodeTableWord_eq_some hdec
  have hfit : s.pc.toNat + (tableBytes nbits w).length ≤ 256 := show s.pc.toNat + 3 ≤ 256 by omega
  have hold : (s.withFetchWord nbits w).holdsAtPc (encode i ++ rest) :=
    decodeWith_eq_ok hrest ▸ holdsAtPc_placeAtPc hm hfit
  exact step_of_holdsAtPc hrun (holdsAtPc_of_append hold)

/-- Settles O18: HLT is its opcode byte alone, so its step is its meaning at every address. -/
theorem hltRule : Obligations.HltRule := by
  unfold Obligations.HltRule
  exact ⟨rfl, fun _ => rfl, fun s hop => step_of_no_operands hop rfl⟩

/-! The bytes at `pc` that are inside memory. -/

theorem window_past_end (hpc : 256 ≤ s.pc.toNat) : s.window = [] := by
  simp [State.window, List.range_succ, Nat.not_lt.2 hpc, show ¬s.pc.toNat + 1 < 256 by omega,
    show ¬s.pc.toNat + 2 < 256 by omega]

/-- The cells behind the opcode that are inside memory, at most two. -/
def State.operandWindow (s : State) : List Byte :=
  (List.range (min 2 (255 - s.pc.toNat))).map fun k => s.cell (s.pc.toNat + (k + 1))

theorem window_inside (hpc : s.pc.toNat < 256) : s.window = s.cell s.pc.toNat :: s.operandWindow := by
  obtain hp | hp | hp : s.pc.toNat ≤ 253 ∨ s.pc.toNat = 254 ∨ s.pc.toNat = 255 := by omega
  · have hmin : min 2 (255 - s.pc.toNat) = 2 := by omega
    simp [State.window, State.operandWindow, hmin, List.range_succ, hpc, show s.pc.toNat + 1 < 256 by omega,
      show s.pc.toNat + 2 < 256 by omega]
  · simp [State.window, State.operandWindow, List.range_succ, hp, memSize]
  · simp [State.window, State.operandWindow, List.range_succ, hp, memSize]

theorem operandWindow_length (s : State) : s.operandWindow.length = min 2 (255 - s.pc.toNat) := by
  simp [State.operandWindow]

theorem operandWindow_getD {k : Nat} (hk : k < s.operandWindow.length) :
    s.operandWindow.getD k 0 = s.cell (s.pc.toNat + (k + 1)) := by
  rw [List.getD_eq_getElem _ _ hk]
  simp [State.operandWindow]

/-- The decoder takes operand bytes where there are enough of them. -/
theorem takeOperands_of_le (hlen : h.operandCount ≤ bytes.length) :
    ∃ rest, takeOperands h bytes = .ok (h.instr (bytes.getD 0 0) (bytes.getD 1 0), rest) := by
  obtain hn | hn | hn := operandCount_cases h
  · exact ⟨bytes, by rw [takeOperands_zero hn, instr_of_count_zero hn]⟩
  · match bytes with
    | [] => exact absurd hlen (by simp [hn])
    | a :: rest => exact ⟨rest, by rw [takeOperands_one hn, instr_of_count_one hn]; rfl⟩
  · match bytes with
    | [] | [_] => exact absurd hlen (by simp [hn])
    | a :: b :: rest => exact ⟨rest, takeOperands_two hn a b rest⟩

/-- Where there are not, it reports the first one missing. -/
theorem takeOperands_of_lt (hlen : bytes.length < h.operandCount) :
    takeOperands h bytes = .error (.missing (bytes.length + 1)) := by
  have hle := operandCount_le h
  match bytes with
  | [] => exact takeOperands_missing_first (Nat.pos_iff_ne_zero.1 hlen)
  | [a] => exact takeOperands_missing_second (Nat.le_antisymm hle hlen) a
  | a :: b :: rest =>
    simp only [List.length_cons] at hlen
    omega

/-- What a decode of the bytes at `pc` says of the fetch: the instruction, or the fault of R97 or R98. -/
def fetchOfDecode (pc : Addr) : Except DecodeError (Instr × List Byte) → Except Raise Instr
  | .ok (i, _) => .ok i
  | .error (.unknownOpcode op) => .error (.unknownOpcode op)
  | .error (.missing k) => .error (.outOfBounds (pc + BitVec.ofNat 9 k))

/-- The fetch is the decode of the readable bytes, under any opcode map and from any state. -/
theorem fetch_eq_decode_window (m : OpcodeMap) (s : State) :
    s.fetch m = fetchOfDecode s.pc (decodeWith m s.window) := by
  by_cases hpc : s.pc.toNat < 256
  · rw [window_inside hpc]
    cases hd : dispatch m (s.cell s.pc.toNat) with
    | none =>
      rw [fetch_not_dispatched hpc hd, decodeWith_of_not_dispatch hd]
      rfl
    | some h =>
      have hlen := operandWindow_length s
      have hle := operandCount_le h
      rw [decodeWith_of_dispatch hd]
      by_cases hend : s.pc.toNat + h.operandCount < 256
      · have hcount : h.operandCount ≤ s.operandWindow.length := by omega
        obtain ⟨rest, htake⟩ := takeOperands_of_le hcount
        have hinstr := instr_congr fun k hk => operandWindow_getD (s := s) (Nat.lt_of_lt_of_le hk hcount)
        rw [fetch_operands_inside hd hend, htake]
        exact congrArg Except.ok hinstr.symm
      · have hmissing : s.pc + BitVec.ofNat 9 (s.operandWindow.length + 1) = 256 :=
          pc_add_eq_256 (by omega) (by omega)
        rw [fetch_operands_past_end hd hpc (by omega), takeOperands_of_lt (by omega), fetchOfDecode, hmissing]
  · rw [window_past_end (by omega), fetch_past_end (by omega)]
    exact congrArg (Except.error ∘ Raise.outOfBounds) (BitVec.add_zero s.pc).symm

/-- Settles O15: the three answers of the decoder, through the fetch. -/
theorem stepIsDecodeOfTheReadableBytes : Obligations.StepIsDecodeOfTheReadableBytes := by
  unfold Obligations.StepIsDecodeOfTheReadableBytes
  intro s hrun
  have hfetch := fetch_eq_decode_window Config.standard.opcodes s
  refine ⟨fun i rest hdec => ?_, fun op hdec => ?_, fun k hdec => ?_⟩
  · exact runStep_of_fetch_ok hrun (hfetch.trans (congrArg (fetchOfDecode s.pc) hdec))
  · exact runStep_of_fetch_error hrun (hfetch.trans (congrArg (fetchOfDecode s.pc) hdec))
  · exact runStep_of_fetch_error hrun (hfetch.trans (congrArg (fetchOfDecode s.pc) hdec))

end Sys2Proof.Machine
end

section
/-! PROOFS. The order of the checks of a step (O36, `spec/60_exceptions.md` R165) and fault entry (O34, R166): the list
is the fetch's fault first, then the instruction's. -/

namespace Sys2Proof.Machine

variable {c : Config} {s : State} {h : Handler} {i : Instr} {r : Raise}

/-- Settles O34: fault entry writes the run state and the record, and nothing else. -/
theorem faultEntry : Obligations.FaultEntry := by
  unfold Obligations.FaultEntry
  exact fun s r => ⟨rfl, rfl, fun _ => rfl, rfl, rfl, fun _ => rfl, rfl⟩

/-- The fault of a fetched instruction: its register check, then CALL's check of the return address. -/
def execFault (s : State) (i : Instr) : Option Raise :=
  match badRegister i with
  | some v => some (.invalidRegister v)
  | none => if i.handler = .call ∧ 254 ≤ s.pc.toNat then some (.outOfBounds 256) else none

theorem execFault_of_bad {v : Byte} (hbad : badRegister i = some v) : execFault s i = some (.invalidRegister v) := by
  rw [execFault, hbad]

theorem execFault_of_good (hgood : badRegister i = none) :
    execFault s i = if i.handler = .call ∧ 254 ≤ s.pc.toNat then some (.outOfBounds 256) else none := by
  rw [execFault, hgood]

theorem badRegister_call_eq_none {a : Byte} : badRegister (.call a) = none ↔ a.toNat < 8 := by
  rw [← wf_iff_badRegister, ← isReg_iff]
  rfl

/-- An instruction with all its bytes in memory takes the fault that `execFault` names. -/
theorem execWith_of_execFault_eq_some (hlen : s.pc.toNat + i.length ≤ 256) (hf : execFault s i = some r) :
    execWith c i s = .next (s.raise r) := by
  cases hbad : badRegister i with
  | some v =>
    cases (execFault_of_bad hbad).symm.trans hf
    exact (execWith_bad hbad).2 s
  | none =>
    rw [execFault_of_good hbad] at hf
    split at hf
    · rename_i hcall
      obtain ⟨hi, hpc⟩ := hcall
      cases hf
      cases i with
      | call a =>
        have hlen : s.pc.toNat + 2 ≤ 256 := hlen
        have h256 : s.pc + 2 = 256 := pc_add_eq_256 (k := 2) (by decide) (by omega)
        have key := execCall_past_end (r := ⟨a.toNat, badRegister_call_eq_none.1 hbad⟩) rfl hpc
        rwa [h256] at key
      | _ => cases hi
    · cases hf

/-- Where it names none, the instruction completes. -/
theorem execWith_of_execFault_eq_none (c : Config) (hrun : s.rs = .running) (hf : execFault s i = none) :
    ∃ t, execWith c i s = .next t ∧ t.rs ≠ .faulted := by
  obtain ⟨t, ht, hres⟩ := execWith_result c i s
  have hrs : s.rs ≠ .faulted := by simp [hrun]
  refine ⟨t, ht, ?_⟩
  cases hres with
  | invalidRegister hbad => cases (execFault_of_bad hbad).symm.trans hf
  | returnAddress h hp =>
    rw [execFault_of_good (badRegister_call_eq_none.2 (by omega)), if_pos ⟨rfl, hp⟩] at hf
    cases hf
  | hlt => exact nofun
  | _ => exact hrs

/-! The list of R165, read from memory. -/

/-- What `badRegister` answers for a register operand, in terms of the byte's value. -/
theorem isReg_ite (v : Byte) (o : Option Byte) :
    (if Byte.isReg v then o else some v) = if 8 ≤ v.toNat then some v else o := by
  by_cases hv : 8 ≤ v.toNat
  · rw [isReg_ite_of_ge hv, if_pos hv]
  · rw [if_pos ((isReg_iff v).2 (by omega)), if_neg hv]

/-- The register checks, said of the handler's format and the operand bytes. -/
theorem badRegister_instr (h : Handler) (a b : Byte) :
    badRegister (h.instr a b) =
      if 1 ≤ h.operandCount ∧ 8 ≤ a.toNat then some a
      else if h.format = .f2r ∧ 8 ≤ b.toNat then some b
      else none := by
  cases h <;> simp [badRegister, Handler.instr, Handler.operandCount, Handler.format, Format.operandCount, isReg_ite]

/-- With all its bytes in memory, the checks left are those of the instruction. -/
theorem firstFault_operands_inside (hd : dispatch c.opcodes (s.cell s.pc.toNat) = some h)
    (hend : s.pc.toNat + h.operandCount < 256) :
    s.firstFault c = execFault s (h.instr (s.cell (s.pc.toNat + 1)) (s.cell (s.pc.toNat + 2))) := by
  have hcall : (h = .call ∧ 256 ≤ s.pc.toNat + 2) = (h = .call ∧ 254 ≤ s.pc.toNat) := by
    simp only [eq_iff_iff, and_congr_right_iff]
    omega
  simp only [State.firstFault, memSize]
  rw [if_neg (by omega), hd]
  dsimp only
  rw [if_neg (by omega), if_neg (by omega), execFault, badRegister_instr, handler_instr]
  simp only [hcall]
  split
  · rfl
  · split <;> rfl

theorem firstFault_operands_past_end (hd : dispatch c.opcodes (s.cell s.pc.toNat) = some h)
    (hpc : s.pc.toNat < 256) (hend : 256 ≤ s.pc.toNat + h.operandCount) :
    s.firstFault c = some (.outOfBounds 256) := by
  have hle := operandCount_le h
  simp only [State.firstFault, memSize]
  rw [if_neg (by omega), hd]
  dsimp only
  by_cases h1 : s.pc.toNat = 255
  · rw [if_pos (by omega), show s.pc + 1 = 256 from pc_add_eq_256 (k := 1) (by decide) (by omega)]
  · rw [if_neg (by omega), if_pos (by omega), show s.pc + 2 = 256 from pc_add_eq_256 (k := 2) (by decide) (by omega)]

theorem firstFault_not_dispatched (hpc : s.pc.toNat < 256) (hd : dispatch c.opcodes (s.cell s.pc.toNat) = none) :
    s.firstFault c = some (.unknownOpcode (s.cell s.pc.toNat)) := by
  simp only [State.firstFault, memSize]
  rw [if_neg (by omega), hd]

theorem firstFault_past_end (hpc : 256 ≤ s.pc.toNat) : s.firstFault c = some (.outOfBounds s.pc) := by
  simp only [State.firstFault, memSize]
  rw [if_pos (by omega)]

/-- The list of R165 is the fetch's fault, or the fault of the instruction fetched. -/
theorem firstFault_cases (c : Config) (s : State) :
    (∃ r, s.fetch c.opcodes = .error r ∧ s.firstFault c = some r) ∨
    ∃ i, s.fetch c.opcodes = .ok i ∧ s.firstFault c = execFault s i := by
  by_cases hpc : s.pc.toNat < 256
  · cases hd : dispatch c.opcodes (s.cell s.pc.toNat) with
    | none => exact .inl ⟨_, fetch_not_dispatched hpc hd, firstFault_not_dispatched hpc hd⟩
    | some h =>
      by_cases hend : s.pc.toNat + h.operandCount < 256
      · exact .inr ⟨_, fetch_operands_inside hd hend, firstFault_operands_inside hd hend⟩
      · have hend : 256 ≤ s.pc.toNat + h.operandCount := by omega
        exact .inl ⟨_, fetch_operands_past_end hd hpc hend, firstFault_operands_past_end hd hpc hend⟩
  · have hpc : 256 ≤ s.pc.toNat := by omega
    exact .inl ⟨_, fetch_past_end hpc, firstFault_past_end hpc⟩

/-- Settles O36: a fault of the fetch is the step's, and after a fetch the instruction's checks decide. -/
theorem firstFailingCheckIsReported : Obligations.FirstFailingCheckIsReported := by
  unfold Obligations.FirstFailingCheckIsReported
  intro c s hrun
  obtain ⟨r, hfetch, hfirst⟩ | ⟨i, hfetch, hfirst⟩ := firstFault_cases c s
  · rw [hfirst]
    refine ⟨fun r' hr => ?_, nofun⟩
    cases hr
    exact runStep_of_fetch_error hrun hfetch
  · have hstep : stepWith c s = execWith c i s := runStep_of_fetch_ok hrun hfetch
    rw [hfirst, hstep]
    exact ⟨fun r => execWith_of_execFault_eq_some (fetch_eq_ok hfetch).1, execWith_of_execFault_eq_none c hrun⟩

end Sys2Proof.Machine
end

section
/-! PROOFS. CMP (O23, O24, `spec/42_arithmetic.md` R122) and the signed reading of the ALU (O49, R124). -/

namespace Sys2Proof.Machine

variable {s : State} {a b : Byte} {r q : Reg}

/-- CMP does not write bits 7..1 of the flags, under either parameter. -/
theorem compareFlags_other (sticky : Bool) (fl p q : Byte) {k : Nat} (hk : 0 < k) :
    (compareFlags sticky fl p q).getLsbD k = fl.getLsbD k := by
  obtain h | ⟨-, -, h⟩ := compareFlags_cases sticky fl p q
  · rw [h, withFlagE_other fl _ hk]
  · rw [h]

/-- Settles O24: CMP writes the flags only, bit 0 of them only, and that as the parameter says. -/
theorem cmpUnderEitherParameter : Obligations.CmpUnderEitherParameter := by
  unfold Obligations.CmpUnderEitherParameter
  intro c s a b r q ha hb
  have he := flagE_compareFlags c.cmpStickyE s.fl (s.getReg r) (s.getReg q)
  refine ⟨_, execCmpWith_eq _ ha hb, fun heq => ?equal, fun hne => ?unequal,
    fun k hk => compareFlags_other _ _ _ _ hk, rfl⟩
  case equal => exact he.trans (by rw [decide_eq_true heq, Bool.true_or])
  case unequal => exact he.trans (by rw [decide_eq_false hne, Bool.false_or]; rfl)

/-- Settles O23: E is the comparison; the faults are those of any instruction with two register operands. -/
theorem cmpRule : Obligations.CmpRule := by
  unfold Obligations.CmpRule
  refine ⟨fun _ _ => rfl, fun s a b r q ha hb => ?completes, fun s a b ha => ?badFirst, fun s a b ha hb => ?badSecond,
    fun s hop hpc => ?pastEnd⟩
  case completes =>
    have hcmp : exec (.cmp a b) s = _ := execCmpWith_eq false ha hb
    refine ⟨_, hcmp, ?_, fun k hk => compareFlags_other _ _ _ _ hk, rfl⟩
    exact (Bool.eq_iff_iff.1 (e_of_exec_cmp ha hb hcmp)).trans decide_eq_true_iff
  case badFirst => exact exec_bad (.cmp a b) (isReg_ite_of_ge ha _) s
  case badSecond => exact exec_bad (.cmp a b) (isReg_ite_of_lt_of_ge ha hb) s
  case pastEnd => exact step_two_operands_past_end hop rfl hpc

/-- Settles O49: reducing to 8 bits is a ring homomorphism, and a byte is the reduction of either reading of it. -/
theorem signednessDoesNotMatter : Obligations.SignednessDoesNotMatter := by
  unfold Obligations.SignednessDoesNotMatter
  refine fun p q => ⟨congrArg Except.ok ?sum, congrArg Except.ok ?product⟩
  case sum => rw [BitVec.ofInt_add, BitVec.ofInt_toInt, BitVec.ofInt_toInt, BitVec.ofNat_add, BitVec.ofNat_toNat,
    BitVec.ofNat_toNat, BitVec.setWidth_eq, BitVec.setWidth_eq]
  case product => rw [BitVec.ofInt_mul, BitVec.ofInt_toInt, BitVec.ofInt_toInt, BitVec.ofNat_mul, BitVec.ofNat_toNat,
    BitVec.ofNat_toNat, BitVec.setWidth_eq, BitVec.setWidth_eq]

end Sys2Proof.Machine
end

section
/-! PROOFS. The stack (O25, O26, O47, `spec/43_stack.md` R130 to R133), CALL and its pair with RET (O27, O46,
`spec/44_control_transfer.md` R141, R146): a byte stored at the decremented SP and what a later pop finds there. -/

namespace Sys2Proof.Machine

variable {s t : State} {a : Byte} {r : Reg}

/-- The state after a push of `v` that goes on at `pc`: what PUSH and CALL have in common. -/
def State.pushed (s : State) (v : Byte) (pc : Addr) : State :=
  { s.decSp with mem := Memory.write s.mem s.decSp.sp.toNat v, pc := pc }

theorem exec_push_eq_pushed (ha : a.toNat = r.val) :
    exec (.push a) s = .next (s.pushed (s.decSp.getReg r) (s.pc + 2)) := execPush_eq ha

theorem exec_call_eq_pushed (ha : a.toNat = r.val) (hpc : s.pc.toNat ≤ 253) :
    exec (.call a) s = .next (s.pushed ((s.pc + 2).setWidth 8) (zext9 (s.decSp.getReg r))) := execCall_eq ha hpc

/-! One fact for each part of the state that a push writes or leaves alone. -/

theorem pushed_sp (s : State) (v : Byte) (pc : Addr) : (s.pushed v pc).sp = s.sp - 1 := s.sp_decSp

theorem getReg_pushed_of_ne {i : Reg} (hi : i ≠ spIndex) (s : State) (v : Byte) (pc : Addr) :
    (s.pushed v pc).getReg i = s.getReg i := s.getReg_setReg_of_ne hi _

theorem cell_pushed_top (hm : Memory.wf s.mem = true) (v : Byte) (pc : Addr) :
    (s.pushed v pc).cell s.decSp.sp.toNat = v := Memory.read_write_self _ v hm

theorem cell_pushed_of_ne {x : Nat} (hx : x ≠ s.decSp.sp.toNat) (v : Byte) (pc : Addr) :
    (s.pushed v pc).cell x = s.cell x := Memory.read_write_of_ne s.mem v hx

theorem getReg_decSp_of_ne (hr : r ≠ spIndex) (s : State) : s.decSp.getReg r = s.getReg r :=
  s.getReg_setReg_of_ne hr _

theorem pushed_sp_toNat (s : State) (v : Byte) (pc : Addr) : (s.pushed v pc).sp.toNat = (s.sp.toNat + 255) % 256 := by
  rw [pushed_sp]
  exact (BitVec.toNat_sub s.sp 1).trans (by rw [Nat.add_comm]; rfl)

/-- Settles O25: PUSH is a push of the register as it reads after the decrement; its faults are those of any instruction
with one operand byte, in a register position. -/
theorem pushRule : Obligations.PushRule := by
  unfold Obligations.PushRule
  refine ⟨fun _ => rfl, fun s a r hm ha => ?completes, fun s a ha => ?badRegister,
    fun s hop => step_one_operand_past_end hop rfl⟩
  case completes =>
    have htop := cell_pushed_top hm (s.decSp.getReg r) (s.pc + 2)
    refine ⟨_, exec_push_eq_pushed ha, pushed_sp_toNat s _ _, fun i hi => getReg_pushed_of_ne hi s _ _, htop,
      fun hr => ?_, fun hr => htop.trans (getReg_decSp_of_ne hr s), fun x hx => cell_pushed_of_ne hx _ _, rfl⟩
    subst hr
    exact htop
  case badRegister => exact exec_bad (.push a) (isReg_ite_of_ge ha none) s

/-! CALL. -/

/-- The return address fits the byte that is stored. -/
theorem returnAddress_toNat (hpc : s.pc.toNat ≤ 253) : ((s.pc + 2).setWidth 8).toNat = s.pc.toNat + 2 := by
  have h2 : (s.pc + 2).toNat = s.pc.toNat + 2 := pc_add_toNat (k := 2) (by decide) (by omega)
  rw [BitVec.toNat_setWidth, h2]
  exact Nat.mod_eq_of_lt (by omega)

/-- Settles O27: CALL is a push of the return address that goes on at the register's value; its own fault is at 254, and
the others are those of any instruction with one operand byte, in a register position. -/
theorem callRule : Obligations.CallRule := by
  unfold Obligations.CallRule
  refine ⟨fun _ => rfl, fun s a r hm ha hpc => ?completes, fun s a ha hpc => ?returnAddress, fun s a ha => ?badRegister,
    fun s hop => step_one_operand_past_end hop rfl⟩
  case completes =>
    have htop := cell_pushed_top hm ((s.pc + 2).setWidth 8) (zext9 (s.decSp.getReg r))
    refine ⟨_, exec_call_eq_pushed ha hpc, pushed_sp_toNat s _ _, fun i hi => getReg_pushed_of_ne hi s _ _,
      (congrArg BitVec.toNat htop).trans (returnAddress_toNat hpc), fun x hx => cell_pushed_of_ne hx _ _,
      fun hr => ?_, fun hr => ?_, rfl⟩
    · exact toNat_of_eq_zext9 (congrArg zext9 (getReg_decSp_of_ne hr s))
    · subst hr
      exact zext9_toNat _
  case returnAddress =>
    have key := execCall_past_end (r := ⟨a.toNat, ha⟩) rfl (show 254 ≤ s.pc.toNat by rw [hpc]; decide)
    rwa [show s.pc + 2 = 256 by rw [hpc]; decide] at key
  case badRegister => exact exec_bad (.call a) (isReg_ite_of_ge ha none) s

/-! POP and RET. -/

theorem incSp_toNat (s : State) : s.incSp.sp.toNat = (s.sp.toNat + 1) % 256 := by
  rw [s.sp_incSp]
  exact BitVec.toNat_add s.sp 1

/-- Settles O26: POP is a write of the byte at SP and then the increment, which for SP itself reads the byte. -/
theorem popRule : Obligations.PopRule := by
  unfold Obligations.PopRule
  refine ⟨fun _ => rfl, fun s a r ha => ⟨_, execPop_eq ha, fun hr => ⟨?value, ?sp⟩, fun hr => ?ofSp,
    fun i hi hsp => ?frame, rfl⟩, fun s a ha => ?badRegister, fun s hop => step_one_operand_past_end hop rfl⟩
  case value => exact (State.getReg_setReg_of_ne _ hr _).trans (s.getReg_setReg_self r _)
  case sp => exact (incSp_toNat _).trans (by rw [s.sp_setReg_of_ne hr])
  case ofSp =>
    subst hr
    exact (incSp_toNat _).trans (by rw [State.sp, s.getReg_setReg_self])
  case frame => exact (State.getReg_setReg_of_ne _ hsp _).trans (s.getReg_setReg_of_ne hi _)
  case badRegister => exact exec_bad (.pop a) (isReg_ite_of_ge ha none) s

/-! Pairs. -/

/-- Where SP and the byte there are as a push of `v` left them, the byte is `v`, and an increment restores SP. -/
theorem top_of_pushed {u : State} {v : Byte} {pc : Addr} (hm : Memory.wf s.mem = true)
    (hsp : u.sp = (s.pushed v pc).sp) (hcell : u.cell u.sp.toNat = (s.pushed v pc).cell (s.pushed v pc).sp.toNat) :
    u.cell u.sp.toNat = v ∧ u.sp + 1 = s.sp := by
  refine ⟨hcell.trans (cell_pushed_top hm v pc), ?_⟩
  rw [hsp, pushed_sp, BitVec.sub_add_cancel]

/-- Settles O46: RET finds the return address on top and goes there. -/
theorem callThenRetReturns : Obligations.CallThenRetReturns := by
  unfold Obligations.CallThenRetReturns
  intro s t u a hm hpc ha hcall hsp hcell
  cases (exec_call_eq_pushed (r := ⟨a.toNat, ha⟩) rfl hpc).symm.trans hcall
  obtain ⟨htop, hup⟩ := top_of_pushed hm (hsp.trans (pushed_sp s _ _).symm) hcell
  refine ⟨_, execRet_eq u, ?_, u.sp_incSp.trans hup⟩
  rw [State.jumpTo_pc, htop]
  apply BitVec.eq_of_toNat_eq
  rw [zext9_toNat, returnAddress_toNat hpc]
  exact (pc_add_toNat (k := 2) (by decide) (by omega)).symm

/-- Settles O47: POP finds the register's value on top and writes it to the other register. -/
theorem pushThenPopMovesTheValue : Obligations.PushThenPopMovesTheValue := by
  unfold Obligations.PushThenPopMovesTheValue
  intro s t u a b r q hm ha hb hr hq hpush hsp hcell
  cases (exec_push_eq_pushed ha).symm.trans hpush
  obtain ⟨htop, hup⟩ := top_of_pushed hm hsp hcell
  refine ⟨_, execPop_eq hb, ?value, ?sp⟩
  case value =>
    calc ((u.setReg q (u.cell u.sp.toNat)).incSp.advance 2).getReg q
        = (u.setReg q (u.cell u.sp.toNat)).getReg q := State.getReg_setReg_of_ne _ hq _
      _ = s.decSp.getReg r := (u.getReg_setReg_self q _).trans htop
      _ = s.getReg r := getReg_decSp_of_ne hr s
  case sp => rw [State.sp_advance, State.sp_incSp, u.sp_setReg_of_ne hq, hup]

end Sys2Proof.Machine
end

section
/-! PROOFS. Instructions that meet their own bytes: a push onto the next opcode (O48, `spec/70_reset_and_hazards.md`
section 4) and a jump to itself (O50, `spec/00_scope.md` section 6). -/

namespace Sys2Proof.Machine

/-- Settles O48: the cell behind PUSH is the top of the stack, so the pushed byte is the next opcode. -/
theorem nextFetchSeesThePushedByte : Obligations.NextFetchSeesThePushedByte := by
  unfold Obligations.NextFetchSeesThePushedByte
  intro s a r hm hrun ha hr hold htop
  refine ⟨_, (step_of_holdsAtPc hrun hold).trans (exec_push_eq_pushed ha), ?_⟩
  generalize ht : s.pushed (s.decSp.getReg r) (s.pc + 2) = t
  have hsp : s.decSp.sp.toNat < 256 := s.decSp.sp.isLt
  have hpc : t.pc.toNat = s.decSp.sp.toNat := by
    rw [← htop, ← ht]
    exact pc_add_toNat (k := 2) (by decide) (by omega)
  have hcell : t.cell t.pc.toNat = s.getReg r := by
    rw [hpc, ← ht, cell_pushed_top hm, getReg_decSp_of_ne hr]
  have hrun' : t.rs = .running := ht ▸ hrun
  have hin : t.pc.toNat < 256 := hpc ▸ hsp
  refine ⟨fun hhlt => ?halts, fun hnone => ?unknown⟩
  case halts => exact step_of_no_operands ⟨hrun', hin, hcell.trans hhlt⟩ rfl
  case unknown =>
    rw [← hcell]
    exact runStep_of_fetch_error hrun' (fetch_unknown_opcode hin (hcell.symm ▸ hnone))

/-- A machine whose step answers the same state answers it after any number of steps. -/
theorem run_of_step_self {M : Host.Core} {s : M.State} (h : M.step s = .next s) (n : Nat) : M.run n s = .next s := by
  induction n with
  | zero => rfl
  | succ n ih => rw [Host.Core.run, h]; exact ih

/-- Settles O50: the jump writes the `pc` that was there. -/
theorem jumpToItselfNeverEnds : Obligations.JumpToItselfNeverEnds := by
  unfold Obligations.JumpToItselfNeverEnds
  intro s a r n hrun ha hold hself
  have hjump : s.jumpTo (s.getReg r) = s := by rw [State.jumpTo, hself]
  have hstep : step s = .next s := by
    rw [step_of_holdsAtPc hrun hold]
    exact (execJmp_eq ha).trans (congrArg _ hjump)
  exact run_of_step_self (M := core) hstep n

end Sys2Proof.Machine
end
